-- ==== Sys2Proof/Word.lean ====
section
/-! DEFINITION. The widths the spec gives values (00_scope R10: every value is unsigned). -/

namespace Sys2Proof

/-- A byte: a buffer cell, a byte on the wire, `UADDR`, `UFC` (10_state R22, R23, R36). -/
abbrev Byte := BitVec 8

/-- A 16-bit value: the checksum and the length registers (10_state R21, R24, R25). -/
abbrev Half := BitVec 16

/-- A 32-bit value: host data and the wide registers (00_scope R6 `HOST_DATA_BITS`). -/
abbrev Word := BitVec 32

/-- A host-port register index (00_scope R6 `HOST_INDEX_BITS`). -/
abbrev Index := BitVec 12

/-- A host transaction `we(1) idx(12) data(32)` as one 45-bit number (30_encoding R101). -/
abbrev Transaction := BitVec 45

end Sys2Proof
end

