-- ==== Sys2Proof/Syntax.lean ====
section
/-! DEFINITION. The operations of the block, one constructor per row of `spec/opcode_table.json`
(30_encoding R93, R101; 40_crc R125). Driver events are not encoded and are not instructions (30_encoding R102). -/

namespace Sys2Proof

/-- One host step of the block. -/
inductive Instr where
  /-- `CRC.RESET` (40_crc R123). -/
  | crcReset
  /-- `CRC.PUSH imm8` (40_crc R124). -/
  | crcPush (imm8 : Byte)
  /-- `FRM.ENCODE` (41_framer R141). -/
  | frmEncode
  /-- `FRM.DECODE` (41_framer R142). -/
  | frmDecode
  /-- `FRM.VERIFY` (41_framer R143). -/
  | frmVerify
  /-- `SEQ.PREDICT` (42_sequencer R173). -/
  | seqPredict
  /-- `SEQ.XCHG` (42_sequencer R175). -/
  | seqXchg
  /-- `SEQ.CLOSE` (42_sequencer R187). -/
  | seqClose
  /-- `HOST.RD idx` (20_memory R61). -/
  | hostRd (idx : Index)
  /-- `HOST.WR idx, v` (20_memory R62); with `idx` = 0 the value is a command word. -/
  | hostWr (idx : Index) (v : Word)
  /-- `CRC.VALUE`, the host read of index 0x003 (40_crc R125). -/
  | crcValue
  deriving DecidableEq, Repr

end Sys2Proof
end

