-- ==== Sys2Proof/WellFormed.lean ====
section
/-! DEFINITION. Well-formed instructions: those spelled as the decoder spells them. Every field has the width the
encoding gives it, so the checks are about spelling only (log 11): index 0x003 is read by `CRC.VALUE`, and a command
word is its command. An ill-formed term still has a meaning, the same as the spelling it should have had. -/

namespace Sys2Proof

/-- A command word by its fields (30_encoding R91, R93, R94): bits 31:16 zero, a unit and an operation of that unit,
`imm8` zero but for `CRC.PUSH`. Written from the fields of R91, not from the match and mask of R93, which `Decode` uses. -/
def isCommandWord (v : Word) : Bool :=
  let unit := v.extractLsb' 12 4
  let fn   := v.extractLsb' 8 4
  let imm8 := v.extractLsb' 0 8
  decide (v.extractLsb' 16 16 = 0) &&
    ((decide (unit = 1) && ((decide (fn = 0) && decide (imm8 = 0)) || decide (fn = 1))) ||
     (decide (unit = 2) && decide (fn.toNat ≤ 2) && decide (imm8 = 0)) ||
     (decide (unit = 3) && decide (fn.toNat ≤ 2) && decide (imm8 = 0)))

/-- The instruction is spelled as the decoder spells it (log 11). -/
def Instr.wf : Instr → Bool
  | .crcReset => true
  | .crcPush _ => true
  | .frmEncode => true
  | .frmDecode => true
  | .frmVerify => true
  | .seqPredict => true
  | .seqXchg => true
  | .seqClose => true
  | .hostRd idx => decide (idx ≠ 0x003)
  | .hostWr idx v => !(decide (idx = 0x000) && isCommandWord v)
  | .crcValue => true

end Sys2Proof
end

