-- ==== Sys2Proof/Decode.lean ====
section
/-! DEFINITION. The two encodings of 30_encoding: the command word `CW` (R91 to R95) and the host transaction `HT`
(R101), decoded and encoded. -/

namespace Sys2Proof

/-- The eight operations a command word can name (30_encoding R93). -/
inductive CommandOp where
  | crcReset
  | crcPush
  | frmEncode
  | frmDecode
  | frmVerify
  | seqPredict
  | seqXchg
  | seqClose
  deriving DecidableEq, Repr

/-- One row of the opcode map of 30_encoding R93. -/
structure CommandRow where
  op    : CommandOp
  value : Word
  mask  : Word
  deriving DecidableEq, Repr

/-- The complete opcode map of 30_encoding R93, `match` (here `value`) and `mask` as the spec gives them. -/
def commandRows : List CommandRow :=
  [ ⟨.crcReset,   0x00001000, 0xFFFFFFFF⟩,
    ⟨.crcPush,    0x00001100, 0xFFFFFF00⟩,
    ⟨.frmEncode,  0x00002000, 0xFFFFFFFF⟩,
    ⟨.frmDecode,  0x00002100, 0xFFFFFFFF⟩,
    ⟨.frmVerify,  0x00002200, 0xFFFFFFFF⟩,
    ⟨.seqPredict, 0x00003000, 0xFFFFFFFF⟩,
    ⟨.seqXchg,    0x00003100, 0xFFFFFFFF⟩,
    ⟨.seqClose,   0x00003200, 0xFFFFFFFF⟩ ]

/-- The row matches the word: `v & mask = match` (30_encoding R92). -/
def CommandRow.accepts (r : CommandRow) (v : Word) : Bool := decide (v &&& r.mask = r.value)

/-- The instruction an operation and its word name; the only immediate is `imm8`, bits 7:0 (30_encoding R94). -/
def CommandOp.toInstr (op : CommandOp) (v : Word) : Instr :=
  match op with
  | .crcReset => .crcReset
  | .crcPush => .crcPush (v.extractLsb' 0 8)
  | .frmEncode => .frmEncode
  | .frmDecode => .frmDecode
  | .frmVerify => .frmVerify
  | .seqPredict => .seqPredict
  | .seqXchg => .seqXchg
  | .seqClose => .seqClose

/-- Why bits are no instruction. -/
inductive DecodeError where
  /-- A command word that matches no row of 30_encoding R93; executed, it raises `IllegalCommand` (R95). -/
  | illegalCommand
  /-- Bits above the 45 of a host transaction are not zero (30_encoding R101, log 10). -/
  | strayBits
  /-- Neither the 32 bits of a command word nor the 45 of a host transaction (30_encoding R91, R101, log 10). -/
  | noSuchLength
  deriving DecidableEq, Repr

/-- Decode a command word (30_encoding R92): the row it matches, if any. -/
def decodeCommand (v : Word) : Option Instr :=
  (commandRows.find? (·.accepts v)).map (·.op.toInstr v)

/-- The field `we` of a host transaction, its most significant bit (30_encoding R101). -/
def Transaction.we (t : Transaction) : Bool := t.getLsbD 44

/-- The field `idx` of a host transaction (30_encoding R101). -/
def Transaction.idx (t : Transaction) : Index := t.extractLsb' 32 12

/-- The field `data` of a host transaction (30_encoding R101). -/
def Transaction.data (t : Transaction) : Word := t.extractLsb' 0 32

/-- The host transaction with these three fields (30_encoding R101). -/
def Transaction.make (we : Bool) (idx : Index) (data : Word) : Transaction :=
  (BitVec.ofBool we ++ idx) ++ data

/-- Decode a host transaction (30_encoding R92, R101; 40_crc R125). A write of index 0x000 whose value is a command
word is that command; with any other value it stays `HOST.WR`, whose meaning raises `IllegalCommand` (R95). A read of
index 0x003 is `CRC.VALUE`, the more specific row. The `data` of a read is not looked at (log 11). -/
def decodeTransaction (t : Transaction) : Instr :=
  if Transaction.we t then
    if Transaction.idx t = 0x000 then
      (decodeCommand (Transaction.data t)).getD (.hostWr 0x000 (Transaction.data t))
    else .hostWr (Transaction.idx t) (Transaction.data t)
  else if Transaction.idx t = 0x003 then .crcValue
  else .hostRd (Transaction.idx t)

/-- Decode `nbits` bits with value `w`: up to 32 bits are a command word, 33 to 48 bits (45 in whole bytes) a host
transaction, whose bits 47:45 do not exist and must be zero. Total on every width and value; rejects by name. -/
def decode (nbits w : Nat) : Except DecodeError Instr :=
  if nbits ≤ 32 then
    if w < 2 ^ 32 then
      match decodeCommand (BitVec.ofNat 32 w) with
      | some i => .ok i
      | none => .error .illegalCommand
    else .error .strayBits
  else if nbits ≤ 48 then
    if w < 2 ^ 45 then .ok (decodeTransaction (BitVec.ofNat 45 w)) else .error .strayBits
  else .error .noSuchLength

/-- The instruction the decoder reads from a word numbered as `spec/opcode_table.json` numbers it. -/
def decodeTableWord (nbits w : Nat) : Option Instr :=
  match decode nbits w with
  | .ok i => some i
  | .error _ => none

/-- The command word of a command (30_encoding R93, R102); none for the host transactions that are no command. -/
def encodeCommand : Instr → Option Word
  | .crcReset => some 0x00001000
  | .crcPush imm8 => some (0x000011#24 ++ imm8)
  | .frmEncode => some 0x00002000
  | .frmDecode => some 0x00002100
  | .frmVerify => some 0x00002200
  | .seqPredict => some 0x00003000
  | .seqXchg => some 0x00003100
  | .seqClose => some 0x00003200
  | .hostRd _ => none
  | .hostWr _ _ => none
  | .crcValue => none

/-- The host transaction of an instruction (30_encoding R101, R102): a command is the write of its word to index
0x000. A read drives no data; the encoder puts zeros there (log 11). -/
def encode (i : Instr) : Transaction :=
  match i with
  | .hostRd idx => Transaction.make false idx 0
  | .hostWr idx v => Transaction.make true idx v
  | .crcValue => Transaction.make false 0x003 0
  | .crcReset => Transaction.make true 0x000 ((encodeCommand i).getD 0)
  | .crcPush _ => Transaction.make true 0x000 ((encodeCommand i).getD 0)
  | .frmEncode => Transaction.make true 0x000 ((encodeCommand i).getD 0)
  | .frmDecode => Transaction.make true 0x000 ((encodeCommand i).getD 0)
  | .frmVerify => Transaction.make true 0x000 ((encodeCommand i).getD 0)
  | .seqPredict => Transaction.make true 0x000 ((encodeCommand i).getD 0)
  | .seqXchg => Transaction.make true 0x000 ((encodeCommand i).getD 0)
  | .seqClose => Transaction.make true 0x000 ((encodeCommand i).getD 0)

end Sys2Proof
end

