-- ==== Sys2Proof/Config.lean ====
section
/-! DEFINITION. The implementation parameters of 00_scope R6, in one record, and `FC_TABLE` (30_encoding R98). -/

namespace Sys2Proof

/-- The families of function codes the prediction distinguishes (30_encoding R98, R99). -/
inductive Family where
  | bitRead
  | registerRead
  | writeEcho
  | maskWrite
  | unknown
  deriving DecidableEq, Repr

/-- The ten functions the document names (30_encoding R98). -/
inductive ModbusFunction where
  | readCoils
  | readDiscreteInputs
  | readHoldingRegisters
  | readInputRegisters
  | writeSingleCoil
  | writeSingleRegister
  | writeMultipleCoils
  | writeMultipleRegisters
  | maskWriteRegister
  | readWriteMultipleRegisters
  deriving DecidableEq, Repr

/-- One row of `FC_TABLE`: a named function, its numeric code, its family (30_encoding R98). -/
structure FcRow where
  function : ModbusFunction
  code     : Byte
  family   : Family
  deriving DecidableEq, Repr

/-- The parameters of 00_scope R6, each under the spec's name. -/
structure Config where
  /-- `CRC_POLY`. -/
  crcPoly       : Half
  /-- `CRC_INIT`. -/
  crcInit       : Half
  /-- `CRC_WIDTH`, the width of `Half`. -/
  crcWidth      : Nat
  /-- `MIN_ADU`. -/
  minAdu        : Nat
  /-- `MAX_ADU`. -/
  maxAdu        : Nat
  /-- `MAX_DATA`. -/
  maxData       : Nat
  /-- `EXC_ADU`. -/
  excAdu        : Nat
  /-- `EXC_BIT`. -/
  excBit        : Byte
  /-- `BAUD_MAX_SCALED`. -/
  baudMaxScaled : Nat
  /-- `CHAR_NUM`. -/
  charNum       : Nat
  /-- `FRAME_NUM`. -/
  frameNum      : Nat
  /-- `CHAR_DEFAULT`. -/
  charDefault   : Nat
  /-- `FRAME_DEFAULT`. -/
  frameDefault  : Nat
  /-- `FC_TABLE`. -/
  fcTable       : List FcRow
  /-- `QTY_OFFSET`. -/
  qtyOffset     : Nat
  /-- `TICK_US`. -/
  tickUs        : Nat
  /-- `HOST_INDEX_BITS`, the width of `Index`. -/
  hostIndexBits : Nat
  /-- `HOST_DATA_BITS`, the width of `Word`. -/
  hostDataBits  : Nat
  deriving DecidableEq, Repr

/-- `FC_TABLE` at the spec's default. PRESUMED (log 4): the numbers are the public Modbus assignments, marked in
30_encoding R98 as general knowledge. Unsafe: a claim about a prediction can rest on them. -/
def Config.defaultFcTable : List FcRow :=
  [ ⟨.readCoils, 0x01, .bitRead⟩,
    ⟨.readDiscreteInputs, 0x02, .bitRead⟩,
    ⟨.readHoldingRegisters, 0x03, .registerRead⟩,
    ⟨.readInputRegisters, 0x04, .registerRead⟩,
    ⟨.writeSingleCoil, 0x05, .writeEcho⟩,
    ⟨.writeSingleRegister, 0x06, .writeEcho⟩,
    ⟨.writeMultipleCoils, 0x0F, .writeEcho⟩,
    ⟨.writeMultipleRegisters, 0x10, .writeEcho⟩,
    ⟨.maskWriteRegister, 0x16, .maskWrite⟩,
    ⟨.readWriteMultipleRegisters, 0x17, .registerRead⟩ ]

/-- The parameters of `MBRTU-1` (00_scope R6). `qtyOffset` for function 0x17 is PRESUMED (log 5). -/
abbrev config : Config where
  crcPoly       := 0xA001
  crcInit       := 0xFFFF
  crcWidth      := 16
  minAdu        := 4
  maxAdu        := 256
  maxData       := 252
  excAdu        := 5
  excBit        := 0x80
  baudMaxScaled := 19200
  charNum       := 15000000
  frameNum      := 35000000
  charDefault   := 750
  frameDefault  := 1750
  fcTable       := Config.defaultFcTable
  qtyOffset     := 4
  tickUs        := 1
  hostIndexBits := 12
  hostDataBits  := 32

end Sys2Proof
end

