-- ==== Sys2Proof/Machine/State.lean ====
section
/-! DEFINITION. The state of `MBRTU` (10_state R20 to R39), the inputs it takes (00_scope R7, 60_exceptions R245 to
R249), the reasons a step can stop, and the state after reset (70_reset R261). -/

namespace Sys2Proof.Machine

/-- The sequencer state `ST` (10_state R26). Values 6 and 7 never occur, so the type does not hold them (log 9). -/
inductive Seq where
  | idle
  | connect
  | send
  | wait
  | readMin
  | readRem
  deriving DecidableEq, Repr

/-- The value of `ERR` (60_exceptions R230). Codes 7 to 255 never occur, so the type does not hold them (log 9). -/
inductive Err where
  | none
  | frameTooShort
  | frameTooLong
  | crcMismatch
  | addressMismatch
  | ioError
  | illegalCommand
  deriving DecidableEq, Repr

/-- The seven driver events (00_scope R7). -/
inductive Event where
  | openOk
  | openFail
  | txAccept
  | txFail
  | rxByte (b : Byte)
  | rxFail
  | tick
  deriving DecidableEq, Repr

/-- The input pins in one clock cycle (60_exceptions R245 to R248, 70_reset R260), and the host transaction made in it,
if any (20_memory R71). -/
structure Pins where
  rst      : Bool
  openOk   : Bool
  openFail : Bool
  txReady  : Bool
  txFail   : Bool
  rxValid  : Bool
  rxData   : Byte
  rxFail   : Bool
  tickUs   : Bool
  host     : Option Transaction
  deriving DecidableEq, Repr

/-- One input to the block. The first three are the atomic steps of 00_scope R7, R8 and 70_reset R260; `cycle` is a
whole clock cycle, in which several of them can fall together (60_exceptions R240). -/
inductive Input where
  | host (t : Transaction)
  | event (e : Event)
  | reset
  | cycle (p : Pins)
  deriving DecidableEq, Repr

/-- What the block hands out in the step just taken (log 3). -/
structure Outputs where
  /-- The 32-bit result of a host read (20_memory R61); none when the step read nothing. -/
  rdData   : Option Word
  /-- The one-step pulse `close_req` (60_exceptions R245, 42_sequencer R187). -/
  closeReq : Bool
  /-- The byte the driver took from `tx_data` (42_sequencer R180); none when it took none. -/
  txTaken  : Option Byte
  deriving DecidableEq, Repr

/-- Nothing handed out. -/
def Outputs.quiet : Outputs where
  rdData   := none
  closeReq := false
  txTaken  := none

/-- The cells of the three buffers (10_state R36), as pairs of host index (20_memory R60) and byte, indices strictly
rising. A cell is listed exactly when its `written` bit is 1 (10_state R37); an unlisted cell reads as no value
(20_memory R66, log 6). -/
abbrev Memory := List Host.Cell

/-- The complete state (10_state R20, R39), and three fields of the model's own: the parameter `fcTable` (log 19), `inputs`
(log 1) and `out` (log 3). -/
structure State where
  /-- `CRC` (R21). -/
  crc     : Half
  /-- `UADDR` (R22). -/
  uaddr   : Byte
  /-- `UFC` (R23). -/
  ufc     : Byte
  /-- `PLEN` (R24). -/
  plen    : Half
  /-- `TXLEN` (R25). -/
  txlen   : Half
  /-- `RXLEN` (R25). -/
  rxlen   : Half
  /-- `ST`, which the spec's pseudocode calls `pc` (R26). -/
  st      : Seq
  /-- `TXCNT` (R27). -/
  txcnt   : Half
  /-- `RXTGT` (R28). -/
  rxtgt   : Half
  /-- `PRED` (R29). -/
  pred    : Word
  /-- `WAITCNT` (R30). -/
  waitcnt : Word
  /-- `BAUD` (R31). -/
  baud    : Word
  /-- `STATUS.DONE` (R33). -/
  doneBit : Bool
  /-- `STATUS.OPEN` (R33). -/
  openBit : Bool
  /-- `ERR` (R34). -/
  err     : Err
  /-- `TXBUF`, `RXBUF`, `PDAT` and their `written` bits (R36, R37). -/
  mem     : Memory
  /-- The parameter `FC_TABLE` (00_scope R6, 30_encoding R98). It is no state of the block (10_state R38): no step changes
  it, and it stands here so that claims range over every table (log 19). -/
  fcTable : List FcRow
  /-- The inputs still to arrive, the next one first (the model's own, log 1). -/
  inputs  : List Input
  /-- The outputs of the step just taken (the model's own, log 3). -/
  out     : Outputs
  deriving DecidableEq, Repr

/-- Faults of the model. The block has none: its errors are codes in `ERR` (60_exceptions R241). -/
inductive Fault where
  /-- A buffer access past the buffer's last cell, which the spec says does not exist (10_state R36). Raised by
  `readCell` and `writeCell`. Safe: no state a run reaches raises it (42_sequencer R184, R190; log 8). -/
  | noSuchCell
  deriving DecidableEq, Repr

/-- The steps the spec gives no meaning and tells a model to refuse, and the refusal of an unmodelled instruction. -/
inductive Refusal where
  /-- An instruction without a meaning in this model, refused in `exec`'s arm. Safe. No arm does so. -/
  | notModelled (mnemonic : String)
  /-- A host write, a command included, while `BUSY` = 1 (20_memory R62, 70_reset R265). Raised by `whenIdle`. Safe. -/
  | hostWriteWhileBusy
  /-- A host access to an unmapped index (20_memory R65). Raised by `execHostRd` and `execHostWr`. Safe. -/
  | unmappedIndex
  /-- A read, by the host, a command or an event, of a buffer cell not written since reset (20_memory R66).
  Raised by `readCell`. Safe. -/
  | unwrittenCell
  deriving DecidableEq, Repr

/-- The state after reset (10_state R39, 70_reset R261): every value is the spec's but for `inputs` (log 1) and `out`
(log 3); the parameter `fcTable` has the spec's default (30_encoding R98, log 4, log 19). -/
def State.reset : State where
  crc     := 0xFFFF
  uaddr   := 0
  ufc     := 0
  plen    := 0
  txlen   := 0
  rxlen   := 0
  st      := .idle
  txcnt   := 0
  rxtgt   := 0
  pred    := 0
  waitcnt := 0
  baud    := 0
  doneBit := false
  openBit := false
  err     := .none
  mem     := []
  fcTable := config.fcTable
  inputs  := []
  out     := Outputs.quiet

end Sys2Proof.Machine
end

