-- ==== Sys2Proof/Machine/Ops.lean ====
section
/-! DEFINITION. The shared operations: reading and writing buffer cells (00_scope R11, 20_memory R66, R74), raising an
error and ending a command (00_scope R12), and the guard on host writes (20_memory R62). -/

namespace Sys2Proof.Machine

/-- The outcome of a step of this machine. -/
abbrev Result := Host.Outcome State Fault Refusal

/-- The result of an access inside a step: a value, or the reason the step stops. -/
inductive Access (α : Type) where
  | ok (a : α)
  | fault (f : Fault)
  | refused (r : Refusal)
  deriving DecidableEq, Repr

/-- Go on with the value of an access, or stop the step. -/
def Access.andThen {α : Type} (x : Access α) (k : α → Result) : Result :=
  match x with
  | .ok a => k a
  | .fault f => .fault f
  | .refused r => .refused r

/-- One access after another. -/
def Access.bind {α β : Type} (x : Access α) (k : α → Access β) : Access β :=
  match x with
  | .ok a => k a
  | .fault f => .fault f
  | .refused r => .refused r

/-- One step after another, within one clock cycle (60_exceptions R240). -/
def resultThen (x : Result) (k : State → Result) : Result :=
  match x with
  | .next s => k s
  | .fault f => .fault f
  | .refused r => .refused r

/-! ## Fields and byte order -/

/-- `lo8` (00_scope R13). -/
def lo8 (v : Half) : Byte := v.extractLsb' 0 8

/-- `hi8` (00_scope R13). -/
def hi8 (v : Half) : Byte := v.extractLsb' 8 8

/-- `be16` (00_scope R13): the first byte on the wire is the high one. -/
def be16 (hi lo : Byte) : Nat := hi.toNat * 256 + lo.toNat

/-! ## Updates of the state -/

/-- `x[ERR] <- e`. -/
def State.setErr (s : State) (e : Err) : State := { s with err := e }

/-- The state with other buffer cells. -/
def State.setMem (s : State) (m : Memory) : State := { s with mem := m }

/-- `pc <- q` (00_scope R11). -/
def State.setSt (s : State) (q : Seq) : State := { s with st := q }

/-- The 32-bit result of a host read comes back (20_memory R61, 30_encoding R101). -/
def State.setRdData (s : State) (w : Word) : State := { s with out := { s.out with rdData := some w } }

/-- The state at the beginning of a step: the inputs after the one taken, and no output yet (log 1, log 3). -/
def State.beginStep (s : State) (rest : List Input) : State := { s with inputs := rest, out := Outputs.quiet }

/-! ## Buffers -/

/-- The three buffers (10_state R36). -/
inductive Buf where
  | txbuf
  | rxbuf
  | pdat
  deriving DecidableEq, Repr

/-- The host index of a buffer's first cell (20_memory R60). -/
abbrev Buf.base : Buf → Nat
  | .txbuf => 0x100
  | .rxbuf => 0x200
  | .pdat => 0x300

/-- The number of cells of a buffer (10_state R36). -/
abbrev Buf.size : Buf → Nat
  | .txbuf => config.maxAdu
  | .rxbuf => config.maxAdu
  | .pdat => config.maxData

/-- The host index of cell `i` of a buffer (20_memory R60). -/
def Buf.addr (b : Buf) (i : Nat) : Nat := b.base + i

/-- The byte at a host index, none if the cell was not written since reset (10_state R37). -/
def Memory.read : Memory → Nat → Option Byte
  | [], _ => none
  | (k, v) :: m, a => if a = k then some v else Memory.read m a

/-- The memory with a byte written at a host index; the indices stay strictly rising. -/
def Memory.write : Memory → Nat → Byte → Memory
  | [], a, b => [(a, b)]
  | (k, v) :: m, a, b =>
    if a < k then (a, b) :: (k, v) :: m
    else if a = k then (a, b) :: m
    else (k, v) :: Memory.write m a b

/-- The host index is that of a buffer cell: 0x100 to 0x3FB, the three buffers without a gap (20_memory R60). -/
def isCellAddr (a : Nat) : Bool :=
  decide (Buf.txbuf.base ≤ a) && decide (a < Buf.pdat.base + Buf.pdat.size)

/-- Every listed index is above `lo`, and the listed indices rise strictly and are buffer cells. -/
def Memory.wfAbove : Nat → Memory → Bool
  | _, [] => true
  | lo, (k, _) :: m => decide (lo < k) && isCellAddr k && Memory.wfAbove k m

/-- The canonical form of memory: indices strictly rising, each one a buffer cell. An unlisted cell reads as no value,
so no entry equals what its absence would read as. Index 0 is no buffer cell (20_memory R60). -/
def Memory.wf (m : Memory) : Bool := Memory.wfAbove 0 m

/-- `MemRead(B+i, 1)` (00_scope R11): refused if the cell is unwritten (20_memory R66). -/
def readCell (m : Memory) (b : Buf) (i : Nat) : Access Byte :=
  if i < b.size then
    match Memory.read m (b.addr i) with
    | some v => .ok v
    | none => .refused .unwrittenCell
  else .fault .noSuchCell

/-- `MemWrite(B+i, 1, v)` (00_scope R11); the cell's `written` bit becomes 1 (10_state R37). -/
def writeCell (m : Memory) (b : Buf) (i : Nat) (v : Byte) : Access Memory :=
  if i < b.size then .ok (Memory.write m (b.addr i) v) else .fault .noSuchCell

/-- `MemRead(B+i, n)` (00_scope R11): the bytes in rising cell order. -/
def readCells (m : Memory) (b : Buf) (i : Nat) : Nat → Access (List Byte)
  | 0 => .ok []
  | n + 1 => (readCell m b i).bind fun v => (readCells m b (i + 1) n).bind fun l => .ok (v :: l)

/-- `MemWrite(B+i, n, l)` (00_scope R11): the bytes of `l` in rising cell order. -/
def writeCells (m : Memory) (b : Buf) (i : Nat) : List Byte → Access Memory
  | [] => .ok m
  | v :: l => (writeCell m b i v).bind fun m' => writeCells m' b (i + 1) l

/-! ## Errors and the end of a command -/

/-- `raise E` (00_scope R12, 60_exceptions R241), the block's one way to take an exception: the code goes to `ERR` and
the command ends. Nothing is saved, no mode changes, no control is transferred, so there is no return to model: the
host's next command simply overwrites `ERR` (60_exceptions R242). -/
def raise (e : Err) (s : State) : Result := .next (s.setErr e)

/-- The last act of a command that did not raise: `x[ERR] <- 0` (00_scope R12). -/
def succeed (s : State) : Result := .next (s.setErr .none)

/-- `STATUS.BUSY`, 1 exactly when `ST` is not `IDLE` (10_state R33). -/
def State.busy (s : State) : Bool := decide (s.st ≠ .idle)

/-- The precondition of every host write, commands included: `BUSY` = 0, else a refusal (20_memory R62, 70_reset
R265). -/
def whenIdle (s : State) (k : Result) : Result :=
  if s.busy then .refused .hostWriteWhileBusy else k

end Sys2Proof.Machine
end

