-- ==== Sys2Proof/Machine/Crc.lean ====
section
/-! DEFINITION. Unit `CRC` (40_crc). -/

namespace Sys2Proof.Machine

/-- One of the eight steps of `crc_step`: shift right by one, and XOR the constant if the bit shifted out was 1
(40_crc R121). PRESUMED (log 7): this bit-level form is marked in the spec as general knowledge. -/
def crcShift (c : Half) : Half :=
  if c.getLsbD 0 then (c >>> 1) ^^^ config.crcPoly else c >>> 1

/-- `n` such steps. -/
def crcShifts : Nat → Half → Half
  | 0, c => c
  | n + 1, c => crcShifts n (crcShift c)

/-- `crc_step` (40_crc R121): the byte enters the low 8 bits, then eight steps. -/
def crcStep (c : Half) (b : Byte) : Half := crcShifts 8 (c ^^^ b.setWidth 16)

/-- The accumulator after the bytes of `l`, in order, from `c`. -/
def crcFrom (c : Half) (l : List Byte) : Half := l.foldl crcStep c

/-- `crc16` (40_crc R122). -/
def crc16 (l : List Byte) : Half := crcFrom config.crcInit l

/-- `CRC.RESET` (40_crc R123). -/
def execCrcReset (s : State) : Result :=
  whenIdle s <| succeed { s with crc := config.crcInit }

/-- `CRC.PUSH imm8` (40_crc R124). -/
def execCrcPush (imm8 : Byte) (s : State) : Result :=
  whenIdle s <| succeed { s with crc := crcStep s.crc imm8 }

/-- `CRC.VALUE` (40_crc R125): a host read, not a command; allowed while busy, and `ERR` does not change. -/
def execCrcValue (s : State) : Result := .next (s.setRdData (s.crc.setWidth 32))

end Sys2Proof.Machine
end

