-- ==== Sys2Proof/Machine/Framer.lean ====
section
/-! DEFINITION. Unit `FRM` (41_framer). -/

namespace Sys2Proof.Machine

/-- The frame of an addressed PDU (30_encoding R96, 41_framer R141): address, function, data, checksum low byte first. -/
def frameOf (addr fc : Byte) (data : List Byte) : List Byte :=
  let c := crc16 (addr :: fc :: data)
  addr :: fc :: (data ++ [lo8 c, hi8 c])

/-- `FRM.ENCODE` (41_framer R141). The length test comes before anything is read or written. -/
def execFrmEncode (s : State) : Result :=
  whenIdle s <|
    let n := s.plen.toNat
    if n + 4 > config.maxAdu then raise .frameTooLong s
    else (readCells s.mem .pdat 0 n).andThen fun d =>
      (writeCells s.mem .txbuf 0 (frameOf s.uaddr s.ufc d)).andThen fun m =>
        succeed { s with crc := crc16 (s.uaddr :: s.ufc :: d), mem := m, txlen := BitVec.ofNat 16 (n + 4) }

/-- Byte `i` of a frame that has it. -/
def byteAt (f : List Byte) (i : Nat) : Byte := f.getD i 0

/-- `FRM.DECODE` (41_framer R142). On `CrcMismatch` the recomputed checksum stays in `CRC`. -/
def execFrmDecode (s : State) : Result :=
  whenIdle s <|
    let n := s.rxlen.toNat
    if n < config.minAdu then raise .frameTooShort s
    else if n > config.maxAdu then raise .frameTooLong s
    else (readCells s.mem .rxbuf 0 n).andThen fun f =>
      let c := crc16 (f.take (n - 2))
      if byteAt f (n - 2) ≠ lo8 c ∨ byteAt f (n - 1) ≠ hi8 c then raise .crcMismatch { s with crc := c }
      else (writeCells s.mem .pdat 0 ((f.drop 2).take (n - 4))).andThen fun m =>
        succeed { s with crc := c, uaddr := byteAt f 0, ufc := byteAt f 1, mem := m, plen := BitVec.ofNat 16 (n - 4) }

/-- `FRM.VERIFY` (41_framer R143): the tests in the order of 60_exceptions R239. -/
def execFrmVerify (s : State) : Result :=
  whenIdle s <|
    if s.rxlen.toNat < config.minAdu then raise .frameTooShort s
    else if s.txlen.toNat < 1 then raise .frameTooShort s
    else (readCell s.mem .rxbuf 0).andThen fun r =>
      (readCell s.mem .txbuf 0).andThen fun t =>
        if r ≠ t then raise .addressMismatch s else succeed s

end Sys2Proof.Machine
end

