-- ==== Sys2Proof/Machine/Delay.lean ====
section
/-! DEFINITION. The delays in microseconds (42_sequencer R176 to R178), on natural numbers: nothing wraps (R190). -/

namespace Sys2Proof.Machine

/-- The baud rates for which the delays scale (42_sequencer R176, R177). -/
abbrev baudScales (baud : Nat) : Prop := 0 < baud ∧ baud ≤ config.baudMaxScaled

/-- `char_delay` (42_sequencer R176); the division truncates. -/
def charDelay (baud : Nat) : Nat :=
  if baudScales baud then config.charNum / baud else config.charDefault

/-- `frame_delay` (42_sequencer R177); the division truncates. -/
def frameDelay (baud : Nat) : Nat :=
  if baudScales baud then config.frameNum / baud else config.frameDefault

/-- `wait_us` (42_sequencer R178). -/
def waitUs (baud chars : Nat) : Nat := charDelay baud * chars + frameDelay baud

end Sys2Proof.Machine
end

