-- ==== Sys2Proof/Machine/Flags.lean ====
section
/-! DEFINITION. The codes and flags software reads: `ST` and `ERR` as numbers, and the view `STATUS` (10_state R26, R33,
60_exceptions R230). No instruction sets a flag as a side effect of computing something else (10_state R33). -/

namespace Sys2Proof.Machine

/-- The code of a sequencer state (10_state R26). -/
def Seq.code : Seq → BitVec 3
  | .idle => 0
  | .connect => 1
  | .send => 2
  | .wait => 3
  | .readMin => 4
  | .readRem => 5

/-- The code of an error (60_exceptions R230). -/
def Err.code : Err → Byte
  | .none => 0
  | .frameTooShort => 1
  | .frameTooLong => 2
  | .crcMismatch => 3
  | .addressMismatch => 4
  | .ioError => 5
  | .illegalCommand => 6

/-- The view `STATUS` (10_state R33), most significant field first: bits 31:11 zero, `ST`, bits 7:3 zero, `OPEN`,
`DONE`, `BUSY`. -/
def statusView (s : State) : Word :=
  ((((0#21 ++ s.st.code) ++ 0#5) ++ BitVec.ofBool s.openBit) ++ BitVec.ofBool s.doneBit) ++ BitVec.ofBool s.busy

end Sys2Proof.Machine
end

