-- ==== Sys2Proof/Machine/Operands.lean ====
section
/-! DEFINITION. The one operand form with a decision in it, the host index (20_memory R60): what it names, how the named
register reads (10_state R39) and how it is written (20_memory R63, R64). Every other operand of every command is a
fixed register, a buffer cell, or `imm8` (30_encoding R94). -/

namespace Sys2Proof.Machine

/-- The sixteen scalar registers and views (10_state R39). -/
inductive Reg where
  | cmd
  | status
  | err
  | crc
  | uaddr
  | ufc
  | plen
  | txlen
  | rxlen
  | baud
  | chdly
  | frdly
  | pred
  | waitcnt
  | txcnt
  | rxtgt
  deriving DecidableEq, Repr

/-- What a host index names (20_memory R60). -/
inductive Target where
  | reg (r : Reg)
  | cell (b : Buf) (i : Nat)
  | unmapped
  deriving DecidableEq, Repr

/-- The scalar registers in index order, 0x000 to 0x00F (10_state R39). -/
def regsInOrder : List Reg :=
  [.cmd, .status, .err, .crc, .uaddr, .ufc, .plen, .txlen, .rxlen, .baud, .chdly, .frdly, .pred, .waitcnt, .txcnt, .rxtgt]

/-- The map of the host index space (20_memory R60). -/
def hostTarget (idx : Index) : Target :=
  let n := idx.toNat
  match regsInOrder[n]? with
  | some r => .reg r
  | none =>
    if n < Buf.txbuf.base then .unmapped
    else if n < Buf.rxbuf.base then .cell .txbuf (n - Buf.txbuf.base)
    else if n < Buf.pdat.base then .cell .rxbuf (n - Buf.rxbuf.base)
    else if n < Buf.pdat.base + Buf.pdat.size then .cell .pdat (n - Buf.pdat.base)
    else .unmapped

/-- The read view of a scalar register, zero-extended to 32 bits (20_memory R61, 10_state R39). `CMD` reads 0 (R35);
`CHDLY` and `FRDLY` are computed at the moment of the read (R32). -/
def readReg (s : State) : Reg → Word
  | .cmd => 0
  | .status => statusView s
  | .err => s.err.code.setWidth 32
  | .crc => s.crc.setWidth 32
  | .uaddr => s.uaddr.setWidth 32
  | .ufc => s.ufc.setWidth 32
  | .plen => s.plen.setWidth 32
  | .txlen => s.txlen.setWidth 32
  | .rxlen => s.rxlen.setWidth 32
  | .baud => s.baud
  | .chdly => BitVec.ofNat 32 (charDelay s.baud.toNat)
  | .frdly => BitVec.ofNat 32 (frameDelay s.baud.toNat)
  | .pred => s.pred
  | .waitcnt => s.waitcnt
  | .txcnt => s.txcnt.setWidth 32
  | .rxtgt => s.rxtgt.setWidth 32

/-- A host write of a scalar register other than a command: the low `width` bits are kept (20_memory R63); a read-only
register or view is left as it is (R64). `CMD` stores nothing (10_state R35); its side effect is the command. -/
def writeReg (s : State) (v : Word) : Reg → State
  | .cmd => s
  | .status => s
  | .err => s
  | .crc => s
  | .uaddr => { s with uaddr := v.extractLsb' 0 8 }
  | .ufc => { s with ufc := v.extractLsb' 0 8 }
  | .plen => { s with plen := v.extractLsb' 0 16 }
  | .txlen => { s with txlen := v.extractLsb' 0 16 }
  | .rxlen => { s with rxlen := v.extractLsb' 0 16 }
  | .baud => { s with baud := v }
  | .chdly => s
  | .frdly => s
  | .pred => s
  | .waitcnt => s
  | .txcnt => s
  | .rxtgt => s

end Sys2Proof.Machine
end

