-- ==== Sys2Proof/Machine/Sequencer.lean ====
section
/-! DEFINITION. Unit `SEQ`: the prediction and the three commands (42_sequencer R172 to R175, R187). -/

namespace Sys2Proof.Machine

/-- The lookup of a function code in a table (42_sequencer R171): `unknown` for a code the table does not list.
If a table lists a code twice, its first row decides (log 19). -/
def familyIn (table : List FcRow) (fc : Byte) : Family :=
  match table with
  | [] => .unknown
  | r :: rest => if r.code = fc then r.family else familyIn rest fc

/-- `family(fc)` (42_sequencer R171, 30_encoding R98), under the parameter `FC_TABLE` (10_state R38). -/
def State.familyOf (s : State) (fc : Byte) : Family := familyIn s.fcTable fc

/-- The families whose request carries a quantity (30_encoding R99). -/
def hasQuantity : Family → Bool
  | .bitRead => true
  | .registerRead => true
  | .writeEcho => false
  | .maskWrite => false
  | .unknown => false

/-- The predicted response length of a family and a quantity (42_sequencer R172); not clamped. -/
def predictedLength (f : Family) (q : Nat) : Nat :=
  match f with
  | .bitRead => 5 + (q + 7) / 8
  | .registerRead => 5 + 2 * q
  | .writeEcho => 8
  | .maskWrite => 10
  | .unknown => 4

/-- `req_check` (42_sequencer R174): the error it raises, none if the request passes. -/
def reqCheck (s : State) : Access (Option Err) :=
  let n := s.txlen.toNat
  if n > config.maxAdu then .ok (some .frameTooLong)
  else if n < 2 then .ok (some .frameTooShort)
  else (readCell s.mem .txbuf 1).bind fun fc =>
    if hasQuantity (s.familyOf fc) ∧ n < config.qtyOffset + 2 then .ok (some .frameTooShort) else .ok none

/-- `predict` (42_sequencer R172) on `TXBUF`: the quantity is read only for the families that carry one. -/
def predict (s : State) : Access Nat :=
  (readCell s.mem .txbuf 1).bind fun fc =>
    if hasQuantity (s.familyOf fc) then
      (readCell s.mem .txbuf config.qtyOffset).bind fun hi =>
        (readCell s.mem .txbuf (config.qtyOffset + 1)).bind fun lo =>
          .ok (predictedLength (s.familyOf fc) (be16 hi lo))
    else .ok (predictedLength (s.familyOf fc) 0)

/-- The common beginning of `SEQ.PREDICT` and `SEQ.XCHG`: `req_check`, which may raise, then the prediction. -/
def withPrediction (s : State) (k : Nat → Result) : Result :=
  (reqCheck s).andThen fun e =>
    match e with
    | some e => raise e s
    | none => (predict s).andThen k

/-- `SEQ.PREDICT` (42_sequencer R173). -/
def execSeqPredict (s : State) : Result :=
  whenIdle s <| withPrediction s fun p => succeed { s with pred := BitVec.ofNat 32 p }

/-- The acceptance step of `SEQ.XCHG` (42_sequencer R175). -/
def execSeqXchg (s : State) : Result :=
  whenIdle s <| withPrediction s fun p =>
    succeed { s with
      pred := BitVec.ofNat 32 p, txcnt := 0, rxlen := 0, rxtgt := BitVec.ofNat 16 config.minAdu, waitcnt := 0,
      doneBit := false, st := if s.openBit then .send else .connect }

/-- `SEQ.CLOSE` (42_sequencer R187): `close_req` pulses exactly when `OPEN` was 1. -/
def execSeqClose (s : State) : Result :=
  whenIdle s <| succeed { s with openBit := false, out := { s.out with closeReq := s.openBit } }

end Sys2Proof.Machine
end

