-- ==== Sys2Proof/Machine/HostPort.lean ====
section
/-! DEFINITION. The host transactions `HOST.RD` and `HOST.WR` (20_memory R61 to R66), and running a command word
(30_encoding R92, R95). -/

namespace Sys2Proof.Machine

/-- `HOST.RD idx` (20_memory R61): allowed in every state; only the result port changes. -/
def execHostRd (idx : Index) (s : State) : Result :=
  match hostTarget idx with
  | .reg r => .next (s.setRdData (readReg s r))
  | .cell b i => (readCell s.mem b i).andThen fun v => .next (s.setRdData (v.setWidth 32))
  | .unmapped => .refused .unmappedIndex

/-- Execute the command word `v` (30_encoding R92): the row it matches, or `IllegalCommand` (R95). No command word
decodes to one of the last three constructors. -/
def runCommand (v : Word) (s : State) : Result :=
  match decodeCommand v with
  | none => whenIdle s <| raise .illegalCommand s
  | some .crcReset => execCrcReset s
  | some (.crcPush imm8) => execCrcPush imm8 s
  | some .frmEncode => execFrmEncode s
  | some .frmDecode => execFrmDecode s
  | some .frmVerify => execFrmVerify s
  | some .seqPredict => execSeqPredict s
  | some .seqXchg => execSeqXchg s
  | some .seqClose => execSeqClose s
  | some (.hostRd _) => whenIdle s <| raise .illegalCommand s
  | some (.hostWr _ _) => whenIdle s <| raise .illegalCommand s
  | some .crcValue => whenIdle s <| raise .illegalCommand s

/-- `HOST.WR idx, v` (20_memory R62); while `BUSY` = 1 it is refused, whatever the index. -/
def execHostWr (idx : Index) (v : Word) (s : State) : Result :=
  whenIdle s <|
    match hostTarget idx with
    | .reg r => if r = .cmd then runCommand v s else .next (writeReg s v r)
    | .cell b i => (writeCell s.mem b i (v.extractLsb' 0 8)).andThen fun m => .next (s.setMem m)
    | .unmapped => .refused .unmappedIndex

end Sys2Proof.Machine
end

