-- ==== Sys2Proof/Machine/Dispatch.lean ====
section
/-! DEFINITION. One arm per instruction. -/

namespace Sys2Proof.Machine

/-- The effect of one host step (00_scope R7, R8). -/
def exec (i : Instr) (s : State) : Host.Outcome State Fault Refusal :=
  match i with
  | .crcReset => Sys2Proof.Machine.execCrcReset s
  | .crcPush imm8 => Sys2Proof.Machine.execCrcPush imm8 s
  | .frmEncode => Sys2Proof.Machine.execFrmEncode s
  | .frmDecode => Sys2Proof.Machine.execFrmDecode s
  | .frmVerify => Sys2Proof.Machine.execFrmVerify s
  | .seqPredict => Sys2Proof.Machine.execSeqPredict s
  | .seqXchg => Sys2Proof.Machine.execSeqXchg s
  | .seqClose => Sys2Proof.Machine.execSeqClose s
  | .hostRd idx => Sys2Proof.Machine.execHostRd idx s
  | .hostWr idx v => Sys2Proof.Machine.execHostWr idx v s
  | .crcValue => Sys2Proof.Machine.execCrcValue s

end Sys2Proof.Machine
end

