-- ==== Sys2Proof/Machine/Events.lean ====
section
/-! DEFINITION. The driver events (42_sequencer R179 to R186). An event outside the states 60_exceptions R249 lists for
it changes nothing (00_scope R9). -/

namespace Sys2Proof.Machine

/-- `fail()` (42_sequencer R186). -/
def failExchange (s : State) : Result := .next { s with rxlen := 0, err := .ioError, st := .idle }

/-- `complete()` (42_sequencer R185). -/
def complete (s : State) : Result := .next { s with doneBit := true, st := .idle }

/-- `target()` as a function of the request's function code, the response's second byte and the prediction
(42_sequencer R183); the success path is tested first. -/
def targetOf (fc r : Byte) (pred : Nat) : Nat :=
  if r = fc then
    if pred > config.minAdu ∧ pred ≤ config.maxAdu then pred else config.minAdu
  else if r = fc ||| config.excBit then config.excAdu
  else config.minAdu

/-- `target()` (42_sequencer R183). -/
def target (s : State) : Access Nat :=
  (readCell s.mem .txbuf 1).bind fun fc =>
    (readCell s.mem .rxbuf 1).bind fun r => .ok (targetOf fc r s.pred.toNat)

/-- `OpenOk` (42_sequencer R179). -/
def onOpenOk (s : State) : Result :=
  if s.st = .connect then .next { s with openBit := true, st := .send } else .next s

/-- `OpenFail` (42_sequencer R179). -/
def onOpenFail (s : State) : Result :=
  if s.st = .connect then failExchange s else .next s

/-- `TxAccept` (42_sequencer R180). -/
def onTxAccept (s : State) : Result :=
  if s.st = .send then
    (readCell s.mem .txbuf s.txcnt.toNat).andThen fun b =>
      let s := { s with txcnt := s.txcnt + 1, out := { s.out with txTaken := some b } }
      if s.txcnt = s.txlen then
        .next { s with waitcnt := BitVec.ofNat 32 (waitUs s.baud.toNat s.txlen.toNat), st := .wait }
      else .next s
  else .next s

/-- `TxFail` (42_sequencer R180). -/
def onTxFail (s : State) : Result :=
  if s.st = .send then failExchange s else .next s

/-- `Tick` (42_sequencer R181): one microsecond. -/
def onTick (s : State) : Result :=
  if s.st = .wait then
    let s := { s with waitcnt := s.waitcnt - BitVec.ofNat 32 config.tickUs }
    if s.waitcnt = 0 then .next (s.setSt .readMin) else .next s
  else .next s

/-- The common beginning of `RxByte` in the two read states: store the byte and count it (42_sequencer R182, R184). -/
def takeByte (b : Byte) (s : State) (k : State → Result) : Result :=
  (writeCell s.mem .rxbuf s.rxlen.toNat b).andThen fun m => k { s with mem := m, rxlen := s.rxlen + 1 }

/-- `RxByte(b)` in `READ_MIN` (42_sequencer R182). -/
def rxByteInReadMin (b : Byte) (s : State) : Result :=
  takeByte b s fun s =>
    if s.rxlen = BitVec.ofNat 16 config.minAdu then
      (target s).andThen fun n =>
        let s := { s with rxtgt := BitVec.ofNat 16 n }
        if n = config.minAdu then complete s else .next (s.setSt .readRem)
    else .next s

/-- `RxByte(b)` in `READ_REM` (42_sequencer R184). -/
def rxByteInReadRem (b : Byte) (s : State) : Result :=
  takeByte b s fun s => if s.rxlen = s.rxtgt then complete s else .next s

/-- `RxByte(b)` (42_sequencer R182, R184). -/
def onRxByte (b : Byte) (s : State) : Result :=
  match s.st with
  | .idle => .next s
  | .connect => .next s
  | .send => .next s
  | .wait => .next s
  | .readMin => rxByteInReadMin b s
  | .readRem => rxByteInReadRem b s

/-- `RxFail` (42_sequencer R182, R184). -/
def onRxFail (s : State) : Result :=
  if s.st = .readMin ∨ s.st = .readRem then failExchange s else .next s

/-- A driver event (00_scope R7). -/
def onEvent (e : Event) (s : State) : Result :=
  match e with
  | .openOk => onOpenOk s
  | .openFail => onOpenFail s
  | .txAccept => onTxAccept s
  | .txFail => onTxFail s
  | .rxByte b => onRxByte b s
  | .rxFail => onRxFail s
  | .tick => onTick s

/-! ## The outputs to the driver (60_exceptions R245 to R249) -/

/-- `open_req`: asserted exactly while `ST` = `CONNECT` (60_exceptions R245). -/
def openReq (s : State) : Bool := decide (s.st = .connect)

/-- `tx_valid`: asserted exactly while `ST` = `SEND` (60_exceptions R246). -/
def txValid (s : State) : Bool := decide (s.st = .send)

/-- `tx_data`: carries `TXBUF[TXCNT]` while `tx_valid` is asserted; what it carries otherwise, or when that cell is
unwritten, the spec does not say, and there is no value (60_exceptions R246). -/
def txData (s : State) : Option Byte :=
  if txValid s then Memory.read s.mem (Buf.txbuf.addr s.txcnt.toNat) else none

/-- `rx_ready`: asserted exactly while `ST` is `READ_MIN` or `READ_REM` (60_exceptions R247). -/
def rxReady (s : State) : Bool := decide (s.st = .readMin) || decide (s.st = .readRem)

/-- `baud[31:0]`, driven in every state (60_exceptions R248). -/
def baudOut (s : State) : Word := s.baud

/-- `close_req` in the step just taken (60_exceptions R245). -/
def closeReq (s : State) : Bool := s.out.closeReq

end Sys2Proof.Machine
end

