-- ==== Sys2Proof/Machine/Inputs.lean ====
section
/-! DEFINITION. Taking one input: a host transaction, a driver event, reset, or a clock cycle in which several of them
fall together (00_scope R7, R8; 60_exceptions R240, R245 to R248; 70_reset R260 to R262). -/

namespace Sys2Proof.Machine

/-- A host transaction: decode it and run it (30_encoding R92, R101). -/
def takeHost (t : Transaction) (s : State) : Result := exec (decodeTransaction t) s

/-- The reset step (70_reset R261, R262): every register to its reset value, every cell unwritten, no output; the
inputs still to come are the outside's and stay (log 13), and so does the parameter `FC_TABLE` (log 19). -/
def takeReset (s : State) : Result := .next { State.reset with inputs := s.inputs, fcTable := s.fcTable }

/-- The failure event of the current state in a cycle (60_exceptions R240, R245 to R247): a failure input counts only
while the block's request is asserted. -/
def failureEvent (p : Pins) (s : State) : Option Event :=
  if openReq s && p.openFail then some .openFail
  else if txValid s && p.txFail then some .txFail
  else if rxReady s && p.rxFail then some .rxFail
  else none

/-- The data event of the current state, or `Tick`, in a cycle (60_exceptions R240, R245 to R248). -/
def dataEvent (p : Pins) (s : State) : Option Event :=
  if openReq s && p.openOk then some .openOk
  else if txValid s && p.txReady then some .txAccept
  else if rxReady s && p.rxValid then some (.rxByte p.rxData)
  else if p.tickUs then some .tick
  else none

/-- The driver's part of a cycle (60_exceptions R240): the failure event, else the data event; a data event beside a
failure event is dropped. Which events there are is decided by the state at the cycle's beginning (log 12). -/
def takeDriver (p : Pins) (s : State) : Result :=
  match failureEvent p s with
  | some e => onEvent e s
  | none =>
    match dataEvent p s with
    | some e => onEvent e s
    | none => .next s

/-- The host's part of a cycle, last (60_exceptions R240). A host write sees the state after the cycle's event, so one in
the very cycle whose event ends the exchange finds `BUSY` = 0 and runs: the model's choice (log 18). -/
def takeHostOf (p : Pins) (s : State) : Result :=
  match p.host with
  | some t => takeHost t s
  | none => .next s

/-- A clock cycle (60_exceptions R240, 70_reset R260): reset first, and then nothing else; without reset the driver's part
and then the host's. A host write beside the event that ends the exchange runs (log 18); a refused host part refuses the
whole cycle (log 14). -/
def takeCycle (p : Pins) (s : State) : Result :=
  if p.rst then takeReset s else resultThen (takeDriver p s) (takeHostOf p)

/-- Take one input. -/
def takeInput (i : Input) (s : State) : Result :=
  match i with
  | .host t => takeHost t s
  | .event e => onEvent e s
  | .reset => takeReset s
  | .cycle p => takeCycle p s

/-- Take the next input, if one is still to come; with none the block stays as it is, and its outputs are quiet: an
exchange may wait for ever (42_sequencer R188, 93_implementation_defined U9; log 2). -/
def takeNext (s : State) : Result :=
  match s.inputs with
  | [] => .next (s.beginStep [])
  | i :: rest => takeInput i (s.beginStep rest)

/-- The host transaction of a word numbered as `spec/opcode_table.json` numbers it: up to 32 bits are a command word,
which the host writes to index 0x000 (30_encoding R91, R102); more are the transaction itself. The model's choice (log 10):
of a word with more bits than that only the low 32, or the low 45, are placed. -/
def transactionOfWord (nbits w : Nat) : Transaction :=
  if nbits ≤ 32 then Transaction.make true 0x000 (BitVec.ofNat 32 w) else BitVec.ofNat 45 w

/-- The state whose next input is the host transaction of a word. -/
def arriveNext (s : State) (nbits w : Nat) : State :=
  { s with inputs := .host (transactionOfWord nbits w) :: s.inputs }

end Sys2Proof.Machine
end

