-- ==== Sys2Proof/Machine/Step.lean ====
section
/-! DEFINITION. One step of the block: the next input, host or environment, takes its effect (00_scope R7, R8). -/

namespace Sys2Proof.Machine

/-- One step (00_scope R8). -/
def step (s : State) : Host.Outcome State Fault Refusal := takeNext s

/-- The state in which the next step runs the given instruction word: the block fetches nothing (10_state R26), so the
word is placed as the next input (log 1). -/
def State.withFetchWord (s : State) (nbits w : Nat) : State := arriveNext s nbits w

end Sys2Proof.Machine
end

