-- ==== Sys2Proof/Safety.lean ====
section
/-! DEFINITION. What claims are stated in: the legal states, and what it is to run safely. -/

namespace Sys2Proof.Machine

/-- Cell `i` of a buffer has been written since reset (10_state R37). -/
abbrev State.written (s : State) (b : Buf) (i : Nat) : Prop := (Memory.read s.mem (b.addr i)).isSome = true

/-- The byte in cell `i` of a buffer, if it was written. -/
abbrev State.cell (s : State) (b : Buf) (i : Nat) : Option Byte := Memory.read s.mem (b.addr i)

/-- Cells `0` to `l.length - 1` of a buffer hold the bytes of `l`. -/
abbrev State.holds (s : State) (b : Buf) (l : List Byte) : Prop := ∀ k, (h : k < l.length) → s.cell b k = some l[k]

/-- The memory `m` is that of `s` with the bytes of `l` in cells `i`, `i + 1`, … of a buffer, and every other index
reads as before. -/
def State.stored (s : State) (b : Buf) (i : Nat) (l : List Byte) (m : Memory) : Prop :=
  (∀ k, (h : k < l.length) → Memory.read m (b.addr (i + k)) = some l[k]) ∧
  ∀ a, a < b.addr i ∨ b.addr (i + l.length) ≤ a → Memory.read m a = Memory.read s.mem a

/-- The request in `TXBUF[0 : TXLEN]` passes `req_check`, its function code is `fc`, and `p` is its predicted response
length (42_sequencer R172, R174). -/
def State.requests (s : State) (fc : Byte) (p : Nat) : Prop :=
  2 ≤ s.txlen.toNat ∧ s.txlen.toNat ≤ 256 ∧ s.cell .txbuf 1 = some fc ∧
  ((s.familyOf fc = .bitRead ∧ 6 ≤ s.txlen.toNat ∧
      ∃ hi lo, s.cell .txbuf 4 = some hi ∧ s.cell .txbuf 5 = some lo ∧ p = 5 + ((hi.toNat * 256 + lo.toNat) + 7) / 8) ∨
   (s.familyOf fc = .registerRead ∧ 6 ≤ s.txlen.toNat ∧
      ∃ hi lo, s.cell .txbuf 4 = some hi ∧ s.cell .txbuf 5 = some lo ∧ p = 5 + 2 * (hi.toNat * 256 + lo.toNat)) ∨
   (s.familyOf fc = .writeEcho ∧ p = 8) ∨
   (s.familyOf fc = .maskWrite ∧ p = 10) ∨
   (s.familyOf fc = .unknown ∧ p = 4))

/-- The request fails `req_check` with the error `e` (42_sequencer R174). -/
def State.rejects (s : State) (e : Err) : Prop :=
  (256 < s.txlen.toNat ∧ e = .frameTooLong) ∨ (s.txlen.toNat < 2 ∧ e = .frameTooShort) ∨
  (2 ≤ s.txlen.toNat ∧ s.txlen.toNat < 6 ∧ e = .frameTooShort ∧
    ∃ fc, s.cell .txbuf 1 = some fc ∧ (s.familyOf fc = .bitRead ∨ s.familyOf fc = .registerRead))

/-- The states in which an event is enabled (60_exceptions R249). -/
def Event.enabledIn (e : Event) (q : Seq) : Bool :=
  match e with
  | .openOk => decide (q = .connect)
  | .openFail => decide (q = .connect)
  | .txAccept => decide (q = .send)
  | .txFail => decide (q = .send)
  | .rxByte _ => decide (q = .readMin) || decide (q = .readRem)
  | .rxFail => decide (q = .readMin) || decide (q = .readRem)
  | .tick => decide (q = .wait)

/-- The driver event a clock cycle brings in a state (60_exceptions R240, R245 to R248): the failure event of that state,
else its data event or `Tick`. A failure or data input counts only while the block's request for it is asserted. -/
def Pins.eventIn (p : Pins) (q : Seq) : Option Event :=
  match q with
  | .idle => none
  | .connect => if p.openFail then some .openFail else if p.openOk then some .openOk else none
  | .send => if p.txFail then some .txFail else if p.txReady then some .txAccept else none
  | .wait => if p.tickUs then some .tick else none
  | .readMin => if p.rxFail then some .rxFail else if p.rxValid then some (.rxByte p.rxData) else none
  | .readRem => if p.rxFail then some .rxFail else if p.rxValid then some (.rxByte p.rxData) else none

/-- A command: an instruction that a command word names (30_encoding R93). -/
def isCommand (i : Instr) : Bool := (encodeCommand i).isSome

/-- The next state of `s` when a host read returns `w`: only the result port changes (20_memory R61, log 3). -/
def State.returning (s : State) (w : Word) : State := { s with out := { s.out with rdData := some w } }

/-- The exchange is in one of the two read states. -/
def Seq.reads : Seq → Bool
  | .readMin => true
  | .readRem => true
  | .idle => false
  | .connect => false
  | .send => false
  | .wait => false

/-- The request has been handed to the driver: `WAIT` and the read states. -/
def Seq.sent : Seq → Bool
  | .wait => true
  | .readMin => true
  | .readRem => true
  | .idle => false
  | .connect => false
  | .send => false

/-- The legal states: what the rules on `ST`, the progress registers and the flags promise of every state a run
reaches (10_state R26 to R30, R33; 42_sequencer R174, R175, R178 to R186, R190). -/
structure State.Inv (s : State) : Prop where
  /-- Memory is in canonical form, and every listed index is a buffer cell (20_memory R60). -/
  memWf : Memory.wf s.mem = true
  /-- While an exchange runs `ERR` is 0 (10_state R34). -/
  busyErr : s.st ≠ .idle → s.err = .none
  /-- While an exchange runs `DONE` is 0 (10_state R33). -/
  busyDone : s.st ≠ .idle → s.doneBit = false
  /-- An accepted request has 2 to 256 bytes (42_sequencer R174). -/
  requestLength : s.st ≠ .idle → 2 ≤ s.txlen.toNat ∧ s.txlen.toNat ≤ 256
  /-- The function code of an accepted request has been written (42_sequencer R174, 20_memory R66). -/
  requestCode : s.st ≠ .idle → s.written .txbuf 1
  /-- `CONNECT` is entered only with `OPEN` = 0 (42_sequencer R179). -/
  connectClosed : s.st = .connect → s.openBit = false
  /-- After `CONNECT` the channel is open (42_sequencer R175, R179). -/
  pastConnectOpen : s.st = .send ∨ s.st.sent = true → s.openBit = true
  /-- Nothing is sent before `SEND` (42_sequencer R175). -/
  connectCount : s.st = .connect → s.txcnt = 0
  /-- Request bytes remain in `SEND` (10_state R26). -/
  sendCount : s.st = .send → s.txcnt.toNat < s.txlen.toNat
  /-- The whole request is sent after `SEND` (42_sequencer R180). -/
  sentCount : s.st.sent = true → s.txcnt = s.txlen
  /-- `WAITCNT` > 0 in `WAIT`, and within its largest load (10_state R26, R30). -/
  waitRange : s.st = .wait → 1 ≤ s.waitcnt.toNat ∧ s.waitcnt.toNat ≤ 3875000000
  /-- `WAITCNT` is 0 outside `WAIT` (42_sequencer R175, R181, R185). -/
  waitZero : s.st ≠ .wait → s.waitcnt = 0
  /-- No response byte before the read states (42_sequencer R175). -/
  rxEmpty : s.st = .connect ∨ s.st = .send ∨ s.st = .wait → s.rxlen = 0
  /-- Between acceptance and the fourth byte `RXTGT` holds 4 (10_state R28). -/
  rxTargetFour : s.st ≠ .idle → s.st ≠ .readRem → s.rxtgt = 4
  /-- Fewer than 4 response bytes in `READ_MIN` (10_state R26). -/
  readMinLength : s.st = .readMin → s.rxlen.toNat < 4
  /-- 4 bytes at least, and fewer than `RXTGT`, in `READ_REM` (10_state R26). -/
  readRemLength : s.st = .readRem → 4 ≤ s.rxlen.toNat ∧ s.rxlen.toNat < s.rxtgt.toNat
  /-- The response bytes counted so far have been written (42_sequencer R182, R184). -/
  rxWritten : s.st.reads = true → ∀ k, k < s.rxlen.toNat → s.written .rxbuf k
  /-- `RXTGT` is 0 before the first exchange, and then 4 to 256 (10_state R28). -/
  rxTargetRange : s.rxtgt = 0 ∨ 4 ≤ s.rxtgt.toNat ∧ s.rxtgt.toNat ≤ 256
  /-- `TXCNT` is at most 256 (42_sequencer R190). -/
  txCountRange : s.txcnt.toNat ≤ 256
  /-- `PRED` is 0 before the first prediction, and then 4 to 131075 (10_state R29). -/
  predRange : s.pred = 0 ∨ 4 ≤ s.pred.toNat ∧ s.pred.toNat ≤ 131075

/-- A safe step: the step answers a next state, so it neither faults nor is refused. -/
def State.stepsSafely (s : State) : Prop := ∃ t, step s = .next t

/-- A safe run of `n` steps. -/
def State.runsSafely (s : State) (n : Nat) : Prop := ∃ t, Host.Core.run Sys2Proof.core n s = .next t

end Sys2Proof.Machine
end

