-- ==== Sys2Proof/Certificates/Slice0/Obligations.lean ====
section
/-! DEFINITION. The statements for the provers. A docstring names the rule of the spec a statement formalises, or says
that it is the model's own and which log entry (notes/assumptions) it rests on. -/

open Sys2Proof Sys2Proof.Machine

/-! ## Encoding -/

/-- 30_encoding R93, R101: for every well-formed instruction, decoding its host transaction gives it back, every
operand at every value. -/
def Obligations.DecodeOfEncodeIsTheInstruction : Prop :=
  ∀ i : Instr, i.wf = true → decodeTransaction (encode i) = i

/-- 30_encoding R101: a write transaction has one meaning and one spelling; of a read, the index is kept and the data,
which is not driven, is not (log 11). -/
def Obligations.EncodeOfDecodeKeepsTheTransaction : Prop :=
  (∀ t : Transaction, Transaction.we t = true → encode (decodeTransaction t) = t) ∧
  (∀ t : Transaction, Transaction.we t = false →
    encode (decodeTransaction t) = Transaction.make false (Transaction.idx t) 0)

/-- 30_encoding R91, R93: the words the match and mask table accepts are exactly those whose fields are a unit, an
operation of it, and `imm8` zero but for `CRC.PUSH`, under a zero high half; and at most one row accepts a word (R92). -/
def Obligations.CommandWordsAreTheLegalFields : Prop :=
  (∀ v : Word, (decodeCommand v).isSome = isCommandWord v) ∧
  (∀ (v : Word) (r r' : CommandRow), r ∈ commandRows → r' ∈ commandRows →
    r.accepts v = true → r'.accepts v = true → r = r')

/-- 95_test_vectors sections 2, 9 and 10: eight words written out in the spec decode to the operations they stand for, and
one decodes to none. That a word of 32 bits is a command word and one of 48 a transaction is log 10; that the read of
0x003 is spelled `CRC.VALUE` is log 11. -/
def Obligations.WordsOfTheSpecDecode : Prop :=
  decodeTableWord 32 0x00001000 = some .crcReset ∧
  decodeTableWord 32 0x00001156 = some (.crcPush 0x56) ∧
  decodeTableWord 32 0x00002100 = some .frmDecode ∧
  decodeTableWord 32 0x00003100 = some .seqXchg ∧
  decodeTableWord 48 0x100400000011 = some (.hostWr 0x004 0x11) ∧
  decodeTableWord 48 0x100000002200 = some .frmVerify ∧
  decodeTableWord 48 0x010700000000 = some (.hostRd 0x107) ∧
  decodeTableWord 48 0x000300000000 = some .crcValue ∧
  decodeTableWord 32 0x00011100 = none

/-! ## Unit CRC -/

/-- 40_crc R123: `CRC.RESET`; nothing but `CRC` and `ERR` changes. -/
def Obligations.CrcResetLoadsTheStartValue : Prop :=
  decodeCommand 0x00001000 = some .crcReset ∧
  ∀ s : State, s.st = .idle → exec .crcReset s = .next { s with crc := 0xFFFF, err := .none }

/-- 40_crc R124: `CRC.PUSH imm8`; nothing but `CRC` and `ERR` changes. -/
def Obligations.CrcPushStepsTheAccumulator : Prop :=
  (∀ b : Byte, decodeCommand (0x000011#24 ++ b) = some (.crcPush b)) ∧
  ∀ (s : State) (b : Byte), s.st = .idle →
    exec (.crcPush b) s = .next { s with crc := crcStep s.crc b, err := .none }

/-- 40_crc R125: `CRC.VALUE` is the host read of index 0x003, returns the accumulator in every state, busy or not, and
changes nothing (the result port is log 3). -/
def Obligations.CrcValueReturnsTheAccumulator : Prop :=
  decodeTransaction 0x000300000000 = .crcValue ∧
  ∀ s : State, exec .crcValue s = .next (s.returning (s.crc.setWidth 32)) ∧ exec (.hostRd 0x003) s = exec .crcValue s

/-- 40_crc R121, the pseudocode step by step (its bit-level form is PRESUMED, log 7). -/
def Obligations.CrcStepIsEightShifts : Prop :=
  ∀ (c : Half) (b : Byte),
    crcStep c b =
      (List.range 8).foldl (fun (c : Half) _ => if c.getLsbD 0 = true then (c >>> 1) ^^^ 0xA001 else c >>> 1)
        (c ^^^ b.setWidth 16)

/-- 40_crc R122: the checksum of a byte sequence, from 0xFFFF by `crc_step` on each byte in order. -/
def Obligations.ChecksumStepsThroughTheBytes : Prop :=
  crc16 [] = 0xFFFF ∧ ∀ (l : List Byte) (b : Byte), crc16 (l ++ [b]) = crcStep (crc16 l) b

/-- 40_crc, law (a) that the spec derives from R121 (PRESUMED bit-level form, log 7): `crc_step` is linear over XOR,
and for each byte a bijection of the accumulator. -/
def Obligations.CrcStepIsALinearBijection : Prop :=
  (∀ (c d : Half) (b : Byte), crcStep (c ^^^ d) b = crcStep c b ^^^ crcStep d 0) ∧
  (∀ b : Byte, Function.Bijective fun c : Half => crcStep c b)

/-- 40_crc, law (b) that the spec derives from R121 and R122 (PRESUMED bit-level form, log 7): appending a checksum low
byte first makes the running checksum of the whole zero. -/
def Obligations.CrcResidueIsZero : Prop :=
  ∀ l : List Byte, crc16 (l ++ [lo8 (crc16 l), hi8 (crc16 l)]) = 0

/-- 95_test_vectors V1, V3, V6, V8, V12 and the trace of R124 (PRESUMED bit-level form, log 7). -/
def Obligations.CrcCheckValues : Prop :=
  crc16 [] = 0xFFFF ∧ crc16 [0x01] = 0x807E ∧
  crc16 [0x31, 0x32, 0x33, 0x34, 0x35, 0x36, 0x37, 0x38, 0x39] = 0x4B37 ∧
  crc16 [0x11, 0x03, 0x00, 0x6B, 0x00, 0x03] = 0x8776 ∧ crc16 [0xFF, 0xFF] = 0x0000

/-- 10_state R21, 70_reset R264: no instruction but `CRC.RESET`, `CRC.PUSH`, `FRM.ENCODE`, `FRM.DECODE` changes the
accumulator, and no driver event does. -/
def Obligations.OnlyFourCommandsWriteCrc : Prop :=
  (∀ (i : Instr) (s t : State), i.wf = true → exec i s = .next t →
    t.crc = s.crc ∨ i = .crcReset ∨ (∃ b, i = .crcPush b) ∨ i = .frmEncode ∨ i = .frmDecode) ∧
  (∀ (e : Event) (s t : State), onEvent e s = .next t → t.crc = s.crc)

/-! ## Unit FRM -/

/-- 41_framer R141: `FRM.ENCODE`. With `PLEN` ≤ 252 and `PDAT[0 : PLEN]` written it stores exactly the frame at
`TXBUF[0]`, low checksum byte first, and changes `CRC`, `TXLEN`, `ERR` besides; with `PLEN` > 252 only `ERR` changes. -/
def Obligations.FrmEncodeBuildsTheFrame : Prop :=
  decodeCommand 0x00002000 = some .frmEncode ∧
  ∀ s : State, s.st = .idle →
    (∀ d : List Byte, d.length = s.plen.toNat → d.length ≤ 252 → s.holds .pdat d →
      ∃ m, exec .frmEncode s =
          .next { s with
            crc := crc16 (s.uaddr :: s.ufc :: d), mem := m, txlen := BitVec.ofNat 16 (d.length + 4), err := .none } ∧
        s.stored .txbuf 0
          (s.uaddr :: s.ufc :: (d ++ [lo8 (crc16 (s.uaddr :: s.ufc :: d)), hi8 (crc16 (s.uaddr :: s.ufc :: d))])) m) ∧
    (252 < s.plen.toNat → exec .frmEncode s = .next { s with err := .frameTooLong })

/-- 41_framer R142: `FRM.DECODE`, its three errors in order, and on success the PDU; nothing is stored but
`PDAT[0 : RXLEN-4]`. -/
def Obligations.FrmDecodeChecksAndUnwraps : Prop :=
  decodeCommand 0x00002100 = some .frmDecode ∧
  ∀ s : State, s.st = .idle →
    (s.rxlen.toNat < 4 → exec .frmDecode s = .next { s with err := .frameTooShort }) ∧
    (256 < s.rxlen.toNat → exec .frmDecode s = .next { s with err := .frameTooLong }) ∧
    (∀ (a fc : Byte) (d : List Byte) (lo hi : Byte),
      d.length + 4 = s.rxlen.toNat → d.length + 4 ≤ 256 → s.holds .rxbuf (a :: fc :: (d ++ [lo, hi])) →
      (¬(lo = lo8 (crc16 (a :: fc :: d)) ∧ hi = hi8 (crc16 (a :: fc :: d))) →
        exec .frmDecode s = .next { s with crc := crc16 (a :: fc :: d), err := .crcMismatch }) ∧
      (lo = lo8 (crc16 (a :: fc :: d)) → hi = hi8 (crc16 (a :: fc :: d)) →
        ∃ m, exec .frmDecode s =
            .next { s with
              crc := crc16 (a :: fc :: d), uaddr := a, ufc := fc, plen := BitVec.ofNat 16 d.length, mem := m,
              err := .none } ∧
          s.stored .pdat 0 d m))

/-- 41_framer R143: `FRM.VERIFY`; only `ERR` changes. -/
def Obligations.FrmVerifyComparesAddresses : Prop :=
  decodeCommand 0x00002200 = some .frmVerify ∧
  ∀ s : State, s.st = .idle →
    (s.rxlen.toNat < 4 → exec .frmVerify s = .next { s with err := .frameTooShort }) ∧
    (4 ≤ s.rxlen.toNat → s.txlen.toNat < 1 → exec .frmVerify s = .next { s with err := .frameTooShort }) ∧
    (∀ r q : Byte, 4 ≤ s.rxlen.toNat → 1 ≤ s.txlen.toNat → s.cell .rxbuf 0 = some r → s.cell .txbuf 0 = some q →
      (r ≠ q → exec .frmVerify s = .next { s with err := .addressMismatch }) ∧
      (r = q → exec .frmVerify s = .next { s with err := .none }))

/-- 41_framer section 3, the round-trip law the spec derives from R141 and R142: encoding what was decoded gives the
received frame back, and decoding a copy of what was encoded gives the PDU back. -/
def Obligations.EncodeAndDecodeAreInverse : Prop :=
  (∀ s t : State, exec .frmDecode s = .next t → t.err = .none →
    ∃ u, exec .frmEncode t = .next u ∧ u.err = .none ∧ u.txlen = s.rxlen ∧
      ∀ k, k < s.rxlen.toNat → u.cell .txbuf k = u.cell .rxbuf k) ∧
  (∀ s t v : State, exec .frmEncode s = .next t → t.err = .none →
    v.st = .idle → v.rxlen = t.txlen → (∀ k, k < t.txlen.toNat → v.cell .rxbuf k = t.cell .txbuf k) →
    ∃ w, exec .frmDecode v = .next w ∧ w.err = .none ∧ w.uaddr = s.uaddr ∧ w.ufc = s.ufc ∧ w.plen = s.plen ∧
      ∀ k, k < s.plen.toNat → w.cell .pdat k = s.cell .pdat k)

/-! ## Unit SEQ: the commands -/

/-- 30_encoding R98, the default `FC_TABLE` (PRESUMED, log 4: numbers from general knowledge): the machine has it after
reset, and under it this is the family of every code. -/
def Obligations.FunctionCodeFamilies : Prop :=
  State.reset.fcTable = Config.defaultFcTable ∧
  ∀ (s : State) (fc : Byte), s.fcTable = Config.defaultFcTable → s.familyOf fc =
    if fc = 0x01 ∨ fc = 0x02 then .bitRead
    else if fc = 0x03 ∨ fc = 0x04 ∨ fc = 0x17 then .registerRead
    else if fc = 0x05 ∨ fc = 0x06 ∨ fc = 0x0F ∨ fc = 0x10 then .writeEcho
    else if fc = 0x16 then .maskWrite
    else .unknown

/-- 42_sequencer R171, 10_state R38: the family of a code under every `FC_TABLE`. A table that lists no code twice gives
each row's code that row's family (with a code listed twice the first row decides, log 19); a code that no row lists is
unknown. That the table stands in State is log 19. -/
def Obligations.FamilyIsTheTablesLookup : Prop :=
  ∀ (s : State) (fc : Byte),
    ((∀ r, r ∈ s.fcTable → r.code ≠ fc) → s.familyOf fc = .unknown) ∧
    (∀ r : FcRow, s.fcTable.Pairwise (fun a b => a.code ≠ b.code) → r ∈ s.fcTable → r.code = fc →
      s.familyOf fc = r.family)

/-- 42_sequencer R173 with R172: `SEQ.PREDICT` on a request that passes `req_check` writes the prediction and clears
`ERR`; on one that fails it writes the error; nothing else changes. -/
def Obligations.SeqPredictWritesThePrediction : Prop :=
  decodeCommand 0x00003000 = some .seqPredict ∧
  ∀ s : State, s.st = .idle →
    (∀ (fc : Byte) (p : Nat), s.requests fc p →
      exec .seqPredict s = .next { s with pred := BitVec.ofNat 32 p, err := .none }) ∧
    (∀ e : Err, s.rejects e → exec .seqPredict s = .next { s with err := e })

/-- 42_sequencer R174: `req_check` raises exactly these errors, and the command that makes it changes nothing else; every
other request passes. -/
def Obligations.RequestCheckRejects : Prop :=
  ∀ (i : Instr) (s : State), i = .seqPredict ∨ i = .seqXchg → s.st = .idle →
    (256 < s.txlen.toNat → exec i s = .next { s with err := .frameTooLong }) ∧
    (s.txlen.toNat < 2 → exec i s = .next { s with err := .frameTooShort }) ∧
    (∀ fc : Byte, 2 ≤ s.txlen.toNat → s.txlen.toNat < 6 → s.cell .txbuf 1 = some fc →
      s.familyOf fc = .bitRead ∨ s.familyOf fc = .registerRead → exec i s = .next { s with err := .frameTooShort }) ∧
    (∀ (fc : Byte) (p : Nat), s.requests fc p → ∃ t, exec i s = .next t ∧ t.err = .none)

/-- 42_sequencer R175: the acceptance of `SEQ.XCHG`, and its rejection; no buffer cell changes. -/
def Obligations.SeqXchgAccepts : Prop :=
  decodeCommand 0x00003100 = some .seqXchg ∧
  ∀ s : State, s.st = .idle →
    (∀ (fc : Byte) (p : Nat), s.requests fc p →
      exec .seqXchg s =
        .next { s with
          pred := BitVec.ofNat 32 p, txcnt := 0, rxlen := 0, rxtgt := 4, waitcnt := 0, doneBit := false, err := .none,
          st := if s.openBit = true then .send else .connect }) ∧
    (∀ e : Err, s.rejects e → exec .seqXchg s = .next { s with err := e })

/-- 42_sequencer R187: `SEQ.CLOSE`; `close_req` pulses exactly when `OPEN` was 1 (the pulse is log 3). -/
def Obligations.SeqCloseClosesTheChannel : Prop :=
  decodeCommand 0x00003200 = some .seqClose ∧
  ∀ s : State, s.st = .idle →
    ∃ t, exec .seqClose s = .next t ∧ t = { s with openBit := false, err := .none, out := t.out } ∧
      closeReq t = s.openBit ∧ t.out = { s.out with closeReq := s.openBit }

/-! ## Unit SEQ: the delays -/

/-- 42_sequencer R176, R177: the delays, and the registers `CHDLY` and `FRDLY` that show them, for every `BAUD`. -/
def Obligations.DelaysFollowTheBaudRate : Prop :=
  (∀ baud : Nat, 0 < baud → baud ≤ 19200 → charDelay baud = 15000000 / baud ∧ frameDelay baud = 35000000 / baud) ∧
  (∀ baud : Nat, baud = 0 ∨ 19200 < baud → charDelay baud = 750 ∧ frameDelay baud = 1750) ∧
  (∀ s : State,
    exec (.hostRd 0x00A) s = .next (s.returning (BitVec.ofNat 32 (charDelay s.baud.toNat))) ∧
    exec (.hostRd 0x00B) s = .next (s.returning (BitVec.ofNat 32 (frameDelay s.baud.toNat))))

/-- 42_sequencer R178: the wait as a formula, and its bounds: at most 3875000000 for up to 256 characters, so it fits 32
bits, and at least 3250, never zero, for 2 characters or more. -/
def Obligations.WaitIsBounded : Prop :=
  ∀ baud chars : Nat, waitUs baud chars = charDelay baud * chars + frameDelay baud ∧
    (chars ≤ 256 → waitUs baud chars ≤ 3875000000) ∧ (2 ≤ chars → 3250 ≤ waitUs baud chars)

/-! ## Unit SEQ: the driver events -/

/-- 42_sequencer R179: `OpenOk` and `OpenFail` in `CONNECT`, while `open_req` is asserted; in any other state neither does
anything. -/
def Obligations.ConnectIsAnswered : Prop :=
  ∀ s : State,
    (s.st = .connect →
      openReq s = true ∧ onEvent .openOk s = .next { s with openBit := true, st := .send } ∧
      onEvent .openFail s = .next { s with rxlen := 0, err := .ioError, st := .idle }) ∧
    (s.st ≠ .connect → onEvent .openOk s = .next s ∧ onEvent .openFail s = .next s)

/-- 42_sequencer R180: `TxAccept` and `TxFail` in `SEND`, while `tx_valid` is asserted and `tx_data` carries the next byte;
no buffer cell changes (the byte handed over is log 3). -/
def Obligations.SendHandsOverTheNextByte : Prop :=
  ∀ s : State, s.st = .send →
    txValid s = true ∧
    (∀ b : Byte, s.txcnt.toNat < 256 → s.cell .txbuf s.txcnt.toNat = some b →
      txData s = some b ∧
      (s.txcnt + 1 ≠ s.txlen →
        onEvent .txAccept s = .next { s with txcnt := s.txcnt + 1, out := { s.out with txTaken := some b } }) ∧
      (s.txcnt + 1 = s.txlen →
        onEvent .txAccept s =
          .next { s with
            txcnt := s.txcnt + 1, waitcnt := BitVec.ofNat 32 (waitUs s.baud.toNat s.txlen.toNat), st := .wait,
            out := { s.out with txTaken := some b } })) ∧
    (s.txcnt.toNat < 256 → ¬s.written .txbuf s.txcnt.toNat → onEvent .txAccept s = .refused .unwrittenCell) ∧
    onEvent .txFail s = .next { s with rxlen := 0, err := .ioError, st := .idle }

/-- 42_sequencer R181: `Tick` in `WAIT`, and that it is ignored in every other state. -/
def Obligations.TickCountsTheWaitDown : Prop :=
  ∀ s : State,
    (s.st = .wait →
      (1 < s.waitcnt.toNat → onEvent .tick s = .next { s with waitcnt := s.waitcnt - 1 }) ∧
      (s.waitcnt = 1 → onEvent .tick s = .next { s with waitcnt := 0, st := .readMin })) ∧
    (s.st ≠ .wait → onEvent .tick s = .next s)

/-- 42_sequencer R183: the length at which the frame is returned, the success path tested first. -/
def Obligations.TargetFollowsTheSecondByte : Prop :=
  ∀ (fc r : Byte) (p : Nat),
    (r = fc → 4 < p → p ≤ 256 → targetOf fc r p = p) ∧
    (r = fc → p ≤ 4 ∨ 256 < p → targetOf fc r p = 4) ∧
    (r ≠ fc → r = fc ||| 0x80 → targetOf fc r p = 5) ∧
    (r ≠ fc → r ≠ fc ||| 0x80 → targetOf fc r p = 4)

/-- 42_sequencer R182 (with `target` of R183 and `complete` of R185): `RxByte` in `READ_MIN`. One byte is stored, at
`RXBUF[RXLEN]`; at the fourth the frame's length is decided. -/
def Obligations.ReadMinTakesFourBytes : Prop :=
  ∀ (s : State) (b : Byte), s.st = .readMin →
    rxReady s = true ∧
    (s.rxlen.toNat < 3 →
      ∃ m, onEvent (.rxByte b) s = .next { s with mem := m, rxlen := s.rxlen + 1 } ∧
        s.stored .rxbuf s.rxlen.toNat [b] m) ∧
    (∀ fc r : Byte, s.rxlen = 3 → s.cell .txbuf 1 = some fc → s.cell .rxbuf 1 = some r →
      ∃ m, s.stored .rxbuf 3 [b] m ∧
        (targetOf fc r s.pred.toNat = 4 →
          onEvent (.rxByte b) s =
            .next { s with mem := m, rxlen := 4, rxtgt := 4, doneBit := true, st := .idle }) ∧
        (targetOf fc r s.pred.toNat ≠ 4 →
          onEvent (.rxByte b) s =
            .next { s with
              mem := m, rxlen := 4, rxtgt := BitVec.ofNat 16 (targetOf fc r s.pred.toNat), st := .readRem })) ∧
    onEvent .rxFail s = .next { s with rxlen := 0, err := .ioError, st := .idle }

/-- 42_sequencer R184 (with `complete` of R185): `RxByte` and `RxFail` in `READ_REM`. -/
def Obligations.ReadRemTakesTheRest : Prop :=
  ∀ (s : State) (b : Byte), s.st = .readRem →
    rxReady s = true ∧
    (s.rxlen.toNat < 256 →
      ∃ m, s.stored .rxbuf s.rxlen.toNat [b] m ∧
        (s.rxlen + 1 ≠ s.rxtgt → onEvent (.rxByte b) s = .next { s with mem := m, rxlen := s.rxlen + 1 }) ∧
        (s.rxlen + 1 = s.rxtgt →
          onEvent (.rxByte b) s = .next { s with mem := m, rxlen := s.rxlen + 1, doneBit := true, st := .idle })) ∧
    onEvent .rxFail s = .next { s with rxlen := 0, err := .ioError, st := .idle }

/-- 60_exceptions R249: which outputs are asserted in which state, and that an event outside its states changes
nothing (00_scope R9). -/
def Obligations.PortsAndEventsPerState : Prop :=
  (∀ s : State,
    openReq s = decide (s.st = .connect) ∧ txValid s = decide (s.st = .send) ∧
    (s.st = .send → txData s = s.cell .txbuf s.txcnt.toNat) ∧
    rxReady s = (decide (s.st = .readMin) || decide (s.st = .readRem)) ∧ baudOut s = s.baud) ∧
  (∀ (e : Event) (s : State), e.enabledIn s.st = false → onEvent e s = .next s)

/-- 42_sequencer section 5, the transition table the spec derives from R175 and R179 to R186: where `ST` goes on every
event and every host step. -/
def Obligations.SequencerTransitionTable : Prop :=
  (∀ (e : Event) (s t : State), onEvent e s = .next t →
    t.st =
      match s.st, e with
      | .connect, .openOk => .send
      | .connect, .openFail => .idle
      | .send, .txAccept => if s.txcnt + 1 = s.txlen then .wait else .send
      | .send, .txFail => .idle
      | .wait, .tick => if s.waitcnt = 1 then .readMin else .wait
      | .readMin, .rxByte _ =>
        if s.rxlen + 1 = 4 then (if t.rxtgt.toNat = 4 then .idle else .readRem) else .readMin
      | .readMin, .rxFail => .idle
      | .readRem, .rxByte _ => if s.rxlen + 1 = s.rxtgt then .idle else .readRem
      | .readRem, .rxFail => .idle
      | q, _ => q) ∧
  (∀ (i : Instr) (s t : State), i.wf = true → exec i s = .next t →
    t.st = s.st ∨
    (i = .seqXchg ∧ s.st = .idle ∧ t.err = .none ∧ t.st = if s.openBit = true then .send else .connect))

/-- 10_state R33: which steps change `DONE` and `OPEN`, and how. -/
def Obligations.FlagsChangeOnlyAsListed : Prop :=
  (∀ (i : Instr) (s t : State), i.wf = true → exec i s = .next t →
    (t.doneBit = s.doneBit ∨ (i = .seqXchg ∧ t.st ≠ .idle ∧ t.doneBit = false)) ∧
    (t.openBit = s.openBit ∨ (i = .seqClose ∧ t.openBit = false))) ∧
  (∀ (e : Event) (s t : State), onEvent e s = .next t →
    (t.doneBit = s.doneBit ∨ ((∃ b, e = .rxByte b) ∧ s.st ≠ .idle ∧ t.st = .idle ∧ t.doneBit = true)) ∧
    (t.openBit = s.openBit ∨ (e = .openOk ∧ s.st = .connect ∧ t.openBit = true)))

/-! ## The host port -/

/-- 20_memory R61: `HOST.RD` of every scalar register, of a written cell, of an unwritten cell, of an unmapped index,
in every state; only the result port changes (log 3). -/
def Obligations.HostReadReturnsTheView : Prop :=
  ∀ s : State,
    exec (.hostRd 0x000) s = .next (s.returning 0) ∧
    exec (.hostRd 0x001) s = .next (s.returning (statusView s)) ∧
    exec (.hostRd 0x002) s = .next (s.returning (s.err.code.setWidth 32)) ∧
    exec (.hostRd 0x003) s = .next (s.returning (s.crc.setWidth 32)) ∧
    exec (.hostRd 0x004) s = .next (s.returning (s.uaddr.setWidth 32)) ∧
    exec (.hostRd 0x005) s = .next (s.returning (s.ufc.setWidth 32)) ∧
    exec (.hostRd 0x006) s = .next (s.returning (s.plen.setWidth 32)) ∧
    exec (.hostRd 0x007) s = .next (s.returning (s.txlen.setWidth 32)) ∧
    exec (.hostRd 0x008) s = .next (s.returning (s.rxlen.setWidth 32)) ∧
    exec (.hostRd 0x009) s = .next (s.returning s.baud) ∧
    exec (.hostRd 0x00A) s = .next (s.returning (BitVec.ofNat 32 (charDelay s.baud.toNat))) ∧
    exec (.hostRd 0x00B) s = .next (s.returning (BitVec.ofNat 32 (frameDelay s.baud.toNat))) ∧
    exec (.hostRd 0x00C) s = .next (s.returning s.pred) ∧
    exec (.hostRd 0x00D) s = .next (s.returning s.waitcnt) ∧
    exec (.hostRd 0x00E) s = .next (s.returning (s.txcnt.setWidth 32)) ∧
    exec (.hostRd 0x00F) s = .next (s.returning (s.rxtgt.setWidth 32)) ∧
    (∀ (b : Buf) (i : Nat) (v : Byte), i < b.size → s.cell b i = some v →
      exec (.hostRd (BitVec.ofNat 12 (b.addr i))) s = .next (s.returning (v.setWidth 32))) ∧
    (∀ (b : Buf) (i : Nat), i < b.size → s.cell b i = none →
      exec (.hostRd (BitVec.ofNat 12 (b.addr i))) s = .refused .unwrittenCell) ∧
    (∀ idx : Index, (0x010 ≤ idx.toNat ∧ idx.toNat < 0x100) ∨ 0x3FC ≤ idx.toNat →
      exec (.hostRd idx) s = .refused .unmappedIndex)

/-- 20_memory R65: an access to an unmapped index is refused. That a write of one while busy is refused as a write while
busy is the model's choice (log 14). -/
def Obligations.UnmappedIndicesAreRefused : Prop :=
  ∀ (s : State) (idx : Index) (v : Word), (0x010 ≤ idx.toNat ∧ idx.toNat < 0x100) ∨ 0x3FC ≤ idx.toNat →
    exec (.hostRd idx) s = .refused .unmappedIndex ∧
    (s.st = .idle → exec (.hostWr idx v) s = .refused .unmappedIndex) ∧
    (s.st ≠ .idle → exec (.hostWr idx v) s = .refused .hostWriteWhileBusy)

/-- 10_state R33: the fields of `STATUS`, and the six codes its field `ST` shows (10_state R26). -/
def Obligations.StatusFields : Prop :=
  (∀ s : State,
    (statusView s).getLsbD 0 = decide (s.st ≠ .idle) ∧ (statusView s).getLsbD 1 = s.doneBit ∧
    (statusView s).getLsbD 2 = s.openBit ∧ (statusView s).extractLsb' 3 5 = 0 ∧
    (statusView s).extractLsb' 8 3 = s.st.code ∧ (statusView s).extractLsb' 11 21 = 0) ∧
  Seq.code .idle = 0 ∧ Seq.code .connect = 1 ∧ Seq.code .send = 2 ∧ Seq.code .wait = 3 ∧ Seq.code .readMin = 4 ∧
  Seq.code .readRem = 5

/-- 20_memory R62, R64: `HOST.WR`, target by target. A command word runs its command; the read-write registers keep the
low bits, the read-only ones and views discard the write, a buffer cell stores `v[7:0]`; nothing else changes; while busy
and on an unmapped index it is refused. That a busy write is refused as such before its index is looked at is the model's
choice (log 14). -/
def Obligations.HostWriteFollowsItsTarget : Prop :=
  ∀ (s : State) (v : Word),
    (s.st ≠ .idle → ∀ idx : Index, exec (.hostWr idx v) s = .refused .hostWriteWhileBusy) ∧
    (s.st = .idle →
      (∀ i : Instr, decodeCommand v = some i → exec (.hostWr 0x000 v) s = exec i s) ∧
      (decodeCommand v = none → exec (.hostWr 0x000 v) s = .next { s with err := .illegalCommand }) ∧
      exec (.hostWr 0x004 v) s = .next { s with uaddr := v.extractLsb' 0 8 } ∧
      exec (.hostWr 0x005 v) s = .next { s with ufc := v.extractLsb' 0 8 } ∧
      exec (.hostWr 0x006 v) s = .next { s with plen := v.extractLsb' 0 16 } ∧
      exec (.hostWr 0x007 v) s = .next { s with txlen := v.extractLsb' 0 16 } ∧
      exec (.hostWr 0x008 v) s = .next { s with rxlen := v.extractLsb' 0 16 } ∧
      exec (.hostWr 0x009 v) s = .next { s with baud := v } ∧
      (∀ idx : Index,
        idx ∈ [0x001#12, 0x002#12, 0x003#12, 0x00A#12, 0x00B#12, 0x00C#12, 0x00D#12, 0x00E#12, 0x00F#12] →
        exec (.hostWr idx v) s = .next s) ∧
      (∀ (b : Buf) (i : Nat), i < b.size →
        ∃ m, exec (.hostWr (BitVec.ofNat 12 (b.addr i)) v) s = .next { s with mem := m } ∧
          s.stored b i [v.extractLsb' 0 8] m) ∧
      (∀ idx : Index, (0x010 ≤ idx.toNat ∧ idx.toNat < 0x100) ∨ 0x3FC ≤ idx.toNat →
        exec (.hostWr idx v) s = .refused .unmappedIndex))

/-- 30_encoding R92, 20_memory R62: a host write of index 0x000 executes the command its value names. -/
def Obligations.WriteToCmdRunsTheCommand : Prop :=
  ∀ (s : State) (v : Word) (i : Instr), decodeCommand v = some i → exec (.hostWr 0x000 v) s = exec i s

/-- 30_encoding R95: a word that is no command raises `IllegalCommand`, code 6, and nothing else changes. -/
def Obligations.IllegalCommandWordsSetErrSix : Prop :=
  (∀ (s : State) (v : Word), s.st = .idle → decodeCommand v = none →
    exec (.hostWr 0x000 v) s = .next { s with err := .illegalCommand }) ∧
  Err.code .illegalCommand = 6 ∧
  decodeCommand 0x00000000 = none ∧ decodeCommand 0x00001001 = none ∧ decodeCommand 0x00001200 = none ∧
  decodeCommand 0x00004000 = none ∧ decodeCommand 0x00012000 = none

/-- 70_reset R265: while an exchange runs every host write is refused, a command included; and in every state, busy or not,
a host read of a register or of a written cell returns the state as of that step. That the busy write of an unmapped index
is refused under the same name is the model's choice (log 14). -/
def Obligations.BusyRefusesWritesOnly : Prop :=
  ∀ s : State,
    (s.st ≠ .idle → ∀ i : Instr, isCommand i = true ∨ (∃ idx v, i = .hostWr idx v) →
      exec i s = .refused .hostWriteWhileBusy) ∧
    exec .crcValue s = .next (s.returning (s.crc.setWidth 32)) ∧
    (∀ (idx : Index) (r : Reg), regsInOrder[idx.toNat]? = some r →
      exec (.hostRd idx) s = .next (s.returning (readReg s r))) ∧
    (∀ (b : Buf) (i : Nat) (v : Byte), i < b.size → s.cell b i = some v →
      exec (.hostRd (BitVec.ofNat 12 (b.addr i))) s = .next (s.returning (v.setWidth 32)))

/-- 20_memory R66: a read, by the host, by a command, by `TxAccept` or by the fourth response byte, of a cell not written
since reset is refused. -/
def Obligations.UnwrittenCellsAreRefused : Prop :=
  (∀ s : State, s.st = .idle → s.plen.toNat ≤ 252 → (∃ k, k < s.plen.toNat ∧ ¬s.written .pdat k) →
    exec .frmEncode s = .refused .unwrittenCell) ∧
  (∀ s : State, s.st = .idle → 4 ≤ s.rxlen.toNat → s.rxlen.toNat ≤ 256 →
    (∃ k, k < s.rxlen.toNat ∧ ¬s.written .rxbuf k) → exec .frmDecode s = .refused .unwrittenCell) ∧
  (∀ s : State, s.st = .idle → 4 ≤ s.rxlen.toNat → 1 ≤ s.txlen.toNat →
    ¬s.written .rxbuf 0 ∨ ¬s.written .txbuf 0 → exec .frmVerify s = .refused .unwrittenCell) ∧
  (∀ (i : Instr) (s : State), i = .seqPredict ∨ i = .seqXchg → s.st = .idle →
    2 ≤ s.txlen.toNat → s.txlen.toNat ≤ 256 → ¬s.written .txbuf 1 → exec i s = .refused .unwrittenCell) ∧
  (∀ (i : Instr) (s : State) (fc : Byte), i = .seqPredict ∨ i = .seqXchg → s.st = .idle →
    6 ≤ s.txlen.toNat → s.txlen.toNat ≤ 256 → s.cell .txbuf 1 = some fc →
    s.familyOf fc = .bitRead ∨ s.familyOf fc = .registerRead → ¬s.written .txbuf 4 ∨ ¬s.written .txbuf 5 →
    exec i s = .refused .unwrittenCell) ∧
  (∀ (s : State) (b : Buf) (i : Nat), i < b.size → ¬s.written b i →
    exec (.hostRd (BitVec.ofNat 12 (b.addr i))) s = .refused .unwrittenCell) ∧
  (∀ s : State, s.st = .send → s.txcnt.toNat < 256 → ¬s.written .txbuf s.txcnt.toNat →
    onEvent .txAccept s = .refused .unwrittenCell) ∧
  (∀ (s : State) (b : Byte), s.st = .readMin → s.rxlen = 3 → ¬s.written .txbuf 1 ∨ ¬s.written .rxbuf 1 →
    onEvent (.rxByte b) s = .refused .unwrittenCell)

/-! ## Errors -/

/-- 60_exceptions R230 to R236: the seven codes, and which command, word or event leaves which error, and exactly when. -/
def Obligations.EveryErrorHasItsCause : Prop :=
  (Err.code .none = 0 ∧ Err.code .frameTooShort = 1 ∧ Err.code .frameTooLong = 2 ∧ Err.code .crcMismatch = 3 ∧
    Err.code .addressMismatch = 4 ∧ Err.code .ioError = 5 ∧ Err.code .illegalCommand = 6) ∧
  (∀ (i : Instr) (s t : State), isCommand i = true → exec i s = .next t →
    (t.err = .frameTooShort ↔
      (i = .frmDecode ∧ s.rxlen.toNat < 4) ∨ (i = .frmVerify ∧ (s.rxlen.toNat < 4 ∨ s.txlen.toNat < 1)) ∨
      ((i = .seqPredict ∨ i = .seqXchg) ∧
        (s.txlen.toNat < 2 ∨
          (s.txlen.toNat < 6 ∧ ∃ fc, s.cell .txbuf 1 = some fc ∧
            (s.familyOf fc = .bitRead ∨ s.familyOf fc = .registerRead))))) ∧
    (t.err = .frameTooLong ↔
      (i = .frmEncode ∧ 256 < s.plen.toNat + 4) ∨ (i = .frmDecode ∧ 256 < s.rxlen.toNat) ∨
      ((i = .seqPredict ∨ i = .seqXchg) ∧ 256 < s.txlen.toNat)) ∧
    (t.err = .crcMismatch ↔
      i = .frmDecode ∧ 4 ≤ s.rxlen.toNat ∧ s.rxlen.toNat ≤ 256 ∧
      ∃ (l : List Byte) (lo hi : Byte), l.length + 2 = s.rxlen.toNat ∧ s.holds .rxbuf (l ++ [lo, hi]) ∧
        ¬(lo = lo8 (crc16 l) ∧ hi = hi8 (crc16 l))) ∧
    (t.err = .addressMismatch ↔
      i = .frmVerify ∧ 4 ≤ s.rxlen.toNat ∧ 1 ≤ s.txlen.toNat ∧ s.cell .rxbuf 0 ≠ s.cell .txbuf 0) ∧
    t.err ≠ .ioError ∧ t.err ≠ .illegalCommand) ∧
  (∀ (v : Word) (s t : State), exec (.hostWr 0x000 v) s = .next t →
    (t.err = .illegalCommand ↔ decodeCommand v = none)) ∧
  (∀ (e : Event) (s t : State), onEvent e s = .next t →
    let failed := (e = .openFail ∧ s.st = .connect) ∨ (e = .txFail ∧ s.st = .send) ∨
      (e = .rxFail ∧ (s.st = .readMin ∨ s.st = .readRem))
    (failed → t.err = .ioError ∧ t.rxlen = 0 ∧ t.st = .idle) ∧ (¬failed → t.err = s.err))

/-- 60_exceptions section 4, which the spec derives from R12: an error leaves every register and cell as it was before
the command, but for `ERR`, and for `CRC` after `CrcMismatch`. -/
def Obligations.ErrorsLeaveNoResult : Prop :=
  ∀ (i : Instr) (s t : State), isCommand i = true → exec i s = .next t → t.err ≠ .none →
    t = { s with err := t.err, crc := t.crc } ∧ (t.crc = s.crc ∨ (i = .frmDecode ∧ t.err = .crcMismatch))

/-- 10_state R34: `ERR` is not sticky: every command overwrites it, so what a command does and leaves does not depend
on the code left before it; and a host read, or a host write of an index other than `CMD`, never changes it. -/
def Obligations.ErrIsOverwrittenByEveryCommand : Prop :=
  (∀ (i : Instr) (s : State) (e : Err), isCommand i = true → exec i { s with err := e } = exec i s) ∧
  (∀ (idx : Index) (s t : State), exec (.hostRd idx) s = .next t → t.err = s.err) ∧
  (∀ (idx : Index) (v : Word) (s t : State), idx ≠ 0x000 → exec (.hostWr idx v) s = .next t → t.err = s.err)

/-! ## The machine -/

/-- A step runs the decoded instruction: when the next input is the host transaction of a well-formed instruction, the
step is that instruction's effect on the state with that input taken and the outputs quiet (00_scope R7, R8; the list of
inputs and the output ports are the model's own, log 1, log 3). -/
def Obligations.StepRunsTheDecodedInstruction : Prop :=
  ∀ (s : State) (rest : List Input) (i : Instr), i.wf = true → s.inputs = .host (encode i) :: rest →
    step s = exec i { s with inputs := rest, out := Outputs.quiet }

/-- The other steps: any host transaction, a driver event, reset, and no input at all (00_scope R7, R8, 70_reset R260,
R262; log 1, log 2, log 3, log 13, log 19). -/
def Obligations.StepTakesTheNextInput : Prop :=
  ∀ (s : State) (rest : List Input),
    (∀ t : Transaction, s.inputs = .host t :: rest →
      step s = exec (decodeTransaction t) { s with inputs := rest, out := Outputs.quiet }) ∧
    (∀ e : Event, s.inputs = .event e :: rest →
      step s = onEvent e { s with inputs := rest, out := Outputs.quiet }) ∧
    (s.inputs = .reset :: rest → step s = .next { State.reset with inputs := rest, fcTable := s.fcTable }) ∧
    (s.inputs = [] → step s = .next { s with out := Outputs.quiet })

/-- 70_reset R261: what reset leaves, as registers, as read views and as outputs. -/
def Obligations.ResetLeavesTheListedValues : Prop :=
  State.reset.crc = 0xFFFF ∧ State.reset.err = .none ∧ State.reset.uaddr = 0 ∧ State.reset.ufc = 0 ∧
  State.reset.plen = 0 ∧ State.reset.txlen = 0 ∧ State.reset.rxlen = 0 ∧ State.reset.baud = 0 ∧
  State.reset.pred = 0 ∧ State.reset.waitcnt = 0 ∧ State.reset.txcnt = 0 ∧ State.reset.rxtgt = 0 ∧
  State.reset.st = .idle ∧ State.reset.doneBit = false ∧ State.reset.openBit = false ∧
  readReg State.reset .status = 0 ∧ readReg State.reset .chdly = 750 ∧ readReg State.reset .frdly = 1750 ∧
  (∀ (b : Buf) (i : Nat), ¬State.reset.written b i) ∧
  openReq State.reset = false ∧ closeReq State.reset = false ∧ txValid State.reset = false ∧
  rxReady State.reset = false ∧ baudOut State.reset = 0

/-- 60_exceptions R240: the inputs of one clock cycle: reset first and then nothing else; the failure event of the
current state, a data event beside it being dropped; else the data event or `Tick`; then the host transaction, which
sees the state after the event. The model's choices in it: the state at the cycle's beginning decides which event counts
(log 12); reset keeps the inputs still to arrive (log 13) and the parameter table (log 19); a refused host part refuses the
whole cycle, the driver's event with it (log 14); a host write beside the event that ends the exchange runs (log 18). -/
def Obligations.CycleTakesInputsInOrder : Prop :=
  (∀ (s : State) (p : Pins) (rest : List Input), s.inputs = .cycle p :: rest → p.rst = true →
    step s = .next { State.reset with inputs := rest, fcTable := s.fcTable }) ∧
  (∀ (s u : State) (p : Pins) (rest : List Input), s.inputs = .cycle p :: rest → p.rst = false →
    u = { s with inputs := rest, out := Outputs.quiet } →
    step s =
      resultThen (match p.eventIn s.st with | some e => onEvent e u | none => .next u)
        (fun u' => match p.host with | some t => exec (decodeTransaction t) u' | none => .next u'))

/-- 10_state R38: `FC_TABLE` is a parameter and no state of the block: no step changes it, under any input, reset included.
That it stands in State is log 19. -/
def Obligations.EveryStepKeepsTheTable : Prop :=
  ∀ s t : State, step s = .next t → t.fcTable = s.fcTable

/-- The legal states hold at reset. -/
def Obligations.ResetIsLegal : Prop := State.Inv State.reset

/-- Every step from a legal state leads to a legal state: memory stays canonical, and the promises of 10_state R26 to
R30 on `ST`, `TXCNT`, `RXLEN`, `RXTGT`, `WAITCNT`, `PRED` are kept, under every input. -/
def Obligations.StepKeepsLegalStates : Prop :=
  ∀ s t : State, s.Inv → step s = .next t → t.Inv

/-- No step from a legal state reaches past a buffer's end (42_sequencer R184, R190; log 8). -/
def Obligations.LegalStatesNeverFault : Prop :=
  ∀ (s : State) (f : Fault), s.Inv → step s ≠ .fault f

/-- In a legal state every enabled driver event completes, but `TxAccept` of an unwritten cell (60_exceptions R249). -/
def Obligations.EnabledEventsComplete : Prop :=
  ∀ (s : State) (e : Event), s.Inv → e.enabledIn s.st = true →
    (e = .txAccept → s.written .txbuf s.txcnt.toNat) → ∃ t, onEvent e s = .next t ∧ t.Inv

/-! ## Whole phases of an exchange -/

/-- 42_sequencer R180: in `SEND` the request's bytes leave in order, each exactly once, and the last one starts the
wait. The list of inputs and the byte handed over are the model's own fields (log 1, log 3). -/
def Obligations.RequestLeavesInOrder : Prop :=
  ∀ (s : State) (f : List Byte) (rest : List Input), s.st = .send → s.txcnt = 0 → f.length = s.txlen.toNat →
    1 ≤ f.length → f.length ≤ 256 → s.holds .txbuf f →
    s.inputs = List.replicate f.length (.event .txAccept) ++ rest →
    (∀ k, (h : k < f.length) → ∃ t, Host.Core.run Sys2Proof.core (k + 1) s = .next t ∧ t.out.txTaken = some f[k]) ∧
    ∃ t, Host.Core.run Sys2Proof.core f.length s = .next t ∧
      t = { s with
        txcnt := s.txlen, waitcnt := BitVec.ofNat 32 (waitUs s.baud.toNat s.txlen.toNat), st := .wait, inputs := rest,
        out := t.out }

/-- 42_sequencer R181: the wait lasts exactly `WAITCNT` ticks: before the last one the state is still `WAIT`, after it
`READ_MIN` with `WAITCNT` = 0. The list of inputs and the quiet outputs are the model's own fields (log 1, log 3). -/
def Obligations.WaitLastsItsTicks : Prop :=
  ∀ (s : State) (rest : List Input), s.st = .wait → 1 ≤ s.waitcnt.toNat →
    s.inputs = List.replicate s.waitcnt.toNat (.event .tick) ++ rest →
    (∀ k, k < s.waitcnt.toNat → ∃ t, Host.Core.run Sys2Proof.core k s = .next t ∧ t.st = .wait ∧
      t.waitcnt.toNat = s.waitcnt.toNat - k) ∧
    Host.Core.run Sys2Proof.core s.waitcnt.toNat s =
      .next { s with st := .readMin, waitcnt := 0, inputs := rest, out := Outputs.quiet }

/-- 42_sequencer R182 to R185: from an empty `READ_MIN`, the bytes the driver delivers are returned as the frame, in
order, as soon as there are as many as `target` decides from the second one. The list of inputs and the quiet outputs are
the model's own fields (log 1, log 3). -/
def Obligations.ResponseBytesBecomeTheFrame : Prop :=
  ∀ (s : State) (fc b0 b1 : Byte) (l : List Byte) (rest : List Input), s.st = .readMin → s.rxlen = 0 →
    s.cell .txbuf 1 = some fc → (b0 :: b1 :: l).length = targetOf fc b1 s.pred.toNat →
    s.inputs = (b0 :: b1 :: l).map (fun b => .event (.rxByte b)) ++ rest →
    ∃ m, Host.Core.run Sys2Proof.core (b0 :: b1 :: l).length s =
        .next { s with
          mem := m, rxlen := BitVec.ofNat 16 (b0 :: b1 :: l).length, rxtgt := BitVec.ofNat 16 (b0 :: b1 :: l).length,
          doneBit := true, st := .idle, inputs := rest, out := Outputs.quiet } ∧
      s.stored .rxbuf 0 (b0 :: b1 :: l) m
end

