-- ==== Sys2Proof/Laws/State.lean ====
section
/-! SUPPORT. The small lemmas of `State`: what each named update does to each field, the fields of the reset state, and
the values of `config`. -/

namespace Sys2Proof

theorem config_crcPoly : config.crcPoly = 0xA001 := rfl
theorem config_crcInit : config.crcInit = 0xFFFF := rfl
theorem config_minAdu : config.minAdu = 4 := rfl
theorem config_maxAdu : config.maxAdu = 256 := rfl
theorem config_maxData : config.maxData = 252 := rfl
theorem config_excAdu : config.excAdu = 5 := rfl
theorem config_excBit : config.excBit = 0x80 := rfl
theorem config_baudMaxScaled : config.baudMaxScaled = 19200 := rfl
theorem config_charNum : config.charNum = 15000000 := rfl
theorem config_frameNum : config.frameNum = 35000000 := rfl
theorem config_charDefault : config.charDefault = 750 := rfl
theorem config_frameDefault : config.frameDefault = 1750 := rfl
theorem config_qtyOffset : config.qtyOffset = 4 := rfl
theorem config_tickUs : config.tickUs = 1 := rfl

/-- The widths of the types are the parameters `CRC_WIDTH`, `HOST_INDEX_BITS`, `HOST_DATA_BITS` (00_scope R6). -/
theorem config_widths : config.crcWidth = 16 ∧ config.hostIndexBits = 12 ∧ config.hostDataBits = 32 := ⟨rfl, rfl, rfl⟩

namespace Machine

@[simp] theorem State.setErr_crc (s : State) (e : Err) : (s.setErr e).crc = s.crc := rfl
@[simp] theorem State.setErr_uaddr (s : State) (e : Err) : (s.setErr e).uaddr = s.uaddr := rfl
@[simp] theorem State.setErr_ufc (s : State) (e : Err) : (s.setErr e).ufc = s.ufc := rfl
@[simp] theorem State.setErr_plen (s : State) (e : Err) : (s.setErr e).plen = s.plen := rfl
@[simp] theorem State.setErr_txlen (s : State) (e : Err) : (s.setErr e).txlen = s.txlen := rfl
@[simp] theorem State.setErr_rxlen (s : State) (e : Err) : (s.setErr e).rxlen = s.rxlen := rfl
@[simp] theorem State.setErr_st (s : State) (e : Err) : (s.setErr e).st = s.st := rfl
@[simp] theorem State.setErr_txcnt (s : State) (e : Err) : (s.setErr e).txcnt = s.txcnt := rfl
@[simp] theorem State.setErr_rxtgt (s : State) (e : Err) : (s.setErr e).rxtgt = s.rxtgt := rfl
@[simp] theorem State.setErr_pred (s : State) (e : Err) : (s.setErr e).pred = s.pred := rfl
@[simp] theorem State.setErr_waitcnt (s : State) (e : Err) : (s.setErr e).waitcnt = s.waitcnt := rfl
@[simp] theorem State.setErr_baud (s : State) (e : Err) : (s.setErr e).baud = s.baud := rfl
@[simp] theorem State.setErr_doneBit (s : State) (e : Err) : (s.setErr e).doneBit = s.doneBit := rfl
@[simp] theorem State.setErr_openBit (s : State) (e : Err) : (s.setErr e).openBit = s.openBit := rfl
@[simp] theorem State.setErr_err (s : State) (e : Err) : (s.setErr e).err = e := rfl
@[simp] theorem State.setErr_mem (s : State) (e : Err) : (s.setErr e).mem = s.mem := rfl
@[simp] theorem State.setErr_fcTable (s : State) (e : Err) : (s.setErr e).fcTable = s.fcTable := rfl
@[simp] theorem State.setErr_inputs (s : State) (e : Err) : (s.setErr e).inputs = s.inputs := rfl
@[simp] theorem State.setErr_out (s : State) (e : Err) : (s.setErr e).out = s.out := rfl

@[simp] theorem State.setMem_crc (s : State) (m : Memory) : (s.setMem m).crc = s.crc := rfl
@[simp] theorem State.setMem_uaddr (s : State) (m : Memory) : (s.setMem m).uaddr = s.uaddr := rfl
@[simp] theorem State.setMem_ufc (s : State) (m : Memory) : (s.setMem m).ufc = s.ufc := rfl
@[simp] theorem State.setMem_plen (s : State) (m : Memory) : (s.setMem m).plen = s.plen := rfl
@[simp] theorem State.setMem_txlen (s : State) (m : Memory) : (s.setMem m).txlen = s.txlen := rfl
@[simp] theorem State.setMem_rxlen (s : State) (m : Memory) : (s.setMem m).rxlen = s.rxlen := rfl
@[simp] theorem State.setMem_st (s : State) (m : Memory) : (s.setMem m).st = s.st := rfl
@[simp] theorem State.setMem_txcnt (s : State) (m : Memory) : (s.setMem m).txcnt = s.txcnt := rfl
@[simp] theorem State.setMem_rxtgt (s : State) (m : Memory) : (s.setMem m).rxtgt = s.rxtgt := rfl
@[simp] theorem State.setMem_pred (s : State) (m : Memory) : (s.setMem m).pred = s.pred := rfl
@[simp] theorem State.setMem_waitcnt (s : State) (m : Memory) : (s.setMem m).waitcnt = s.waitcnt := rfl
@[simp] theorem State.setMem_baud (s : State) (m : Memory) : (s.setMem m).baud = s.baud := rfl
@[simp] theorem State.setMem_doneBit (s : State) (m : Memory) : (s.setMem m).doneBit = s.doneBit := rfl
@[simp] theorem State.setMem_openBit (s : State) (m : Memory) : (s.setMem m).openBit = s.openBit := rfl
@[simp] theorem State.setMem_err (s : State) (m : Memory) : (s.setMem m).err = s.err := rfl
@[simp] theorem State.setMem_mem (s : State) (m : Memory) : (s.setMem m).mem = m := rfl
@[simp] theorem State.setMem_fcTable (s : State) (m : Memory) : (s.setMem m).fcTable = s.fcTable := rfl
@[simp] theorem State.setMem_inputs (s : State) (m : Memory) : (s.setMem m).inputs = s.inputs := rfl
@[simp] theorem State.setMem_out (s : State) (m : Memory) : (s.setMem m).out = s.out := rfl

@[simp] theorem State.setSt_crc (s : State) (q : Seq) : (s.setSt q).crc = s.crc := rfl
@[simp] theorem State.setSt_uaddr (s : State) (q : Seq) : (s.setSt q).uaddr = s.uaddr := rfl
@[simp] theorem State.setSt_ufc (s : State) (q : Seq) : (s.setSt q).ufc = s.ufc := rfl
@[simp] theorem State.setSt_plen (s : State) (q : Seq) : (s.setSt q).plen = s.plen := rfl
@[simp] theorem State.setSt_txlen (s : State) (q : Seq) : (s.setSt q).txlen = s.txlen := rfl
@[simp] theorem State.setSt_rxlen (s : State) (q : Seq) : (s.setSt q).rxlen = s.rxlen := rfl
@[simp] theorem State.setSt_st (s : State) (q : Seq) : (s.setSt q).st = q := rfl
@[simp] theorem State.setSt_txcnt (s : State) (q : Seq) : (s.setSt q).txcnt = s.txcnt := rfl
@[simp] theorem State.setSt_rxtgt (s : State) (q : Seq) : (s.setSt q).rxtgt = s.rxtgt := rfl
@[simp] theorem State.setSt_pred (s : State) (q : Seq) : (s.setSt q).pred = s.pred := rfl
@[simp] theorem State.setSt_waitcnt (s : State) (q : Seq) : (s.setSt q).waitcnt = s.waitcnt := rfl
@[simp] theorem State.setSt_baud (s : State) (q : Seq) : (s.setSt q).baud = s.baud := rfl
@[simp] theorem State.setSt_doneBit (s : State) (q : Seq) : (s.setSt q).doneBit = s.doneBit := rfl
@[simp] theorem State.setSt_openBit (s : State) (q : Seq) : (s.setSt q).openBit = s.openBit := rfl
@[simp] theorem State.setSt_err (s : State) (q : Seq) : (s.setSt q).err = s.err := rfl
@[simp] theorem State.setSt_mem (s : State) (q : Seq) : (s.setSt q).mem = s.mem := rfl
@[simp] theorem State.setSt_fcTable (s : State) (q : Seq) : (s.setSt q).fcTable = s.fcTable := rfl
@[simp] theorem State.setSt_inputs (s : State) (q : Seq) : (s.setSt q).inputs = s.inputs := rfl
@[simp] theorem State.setSt_out (s : State) (q : Seq) : (s.setSt q).out = s.out := rfl

@[simp] theorem State.setRdData_crc (s : State) (w : Word) : (s.setRdData w).crc = s.crc := rfl
@[simp] theorem State.setRdData_uaddr (s : State) (w : Word) : (s.setRdData w).uaddr = s.uaddr := rfl
@[simp] theorem State.setRdData_ufc (s : State) (w : Word) : (s.setRdData w).ufc = s.ufc := rfl
@[simp] theorem State.setRdData_plen (s : State) (w : Word) : (s.setRdData w).plen = s.plen := rfl
@[simp] theorem State.setRdData_txlen (s : State) (w : Word) : (s.setRdData w).txlen = s.txlen := rfl
@[simp] theorem State.setRdData_rxlen (s : State) (w : Word) : (s.setRdData w).rxlen = s.rxlen := rfl
@[simp] theorem State.setRdData_st (s : State) (w : Word) : (s.setRdData w).st = s.st := rfl
@[simp] theorem State.setRdData_txcnt (s : State) (w : Word) : (s.setRdData w).txcnt = s.txcnt := rfl
@[simp] theorem State.setRdData_rxtgt (s : State) (w : Word) : (s.setRdData w).rxtgt = s.rxtgt := rfl
@[simp] theorem State.setRdData_pred (s : State) (w : Word) : (s.setRdData w).pred = s.pred := rfl
@[simp] theorem State.setRdData_waitcnt (s : State) (w : Word) : (s.setRdData w).waitcnt = s.waitcnt := rfl
@[simp] theorem State.setRdData_baud (s : State) (w : Word) : (s.setRdData w).baud = s.baud := rfl
@[simp] theorem State.setRdData_doneBit (s : State) (w : Word) : (s.setRdData w).doneBit = s.doneBit := rfl
@[simp] theorem State.setRdData_openBit (s : State) (w : Word) : (s.setRdData w).openBit = s.openBit := rfl
@[simp] theorem State.setRdData_err (s : State) (w : Word) : (s.setRdData w).err = s.err := rfl
@[simp] theorem State.setRdData_mem (s : State) (w : Word) : (s.setRdData w).mem = s.mem := rfl
@[simp] theorem State.setRdData_fcTable (s : State) (w : Word) : (s.setRdData w).fcTable = s.fcTable := rfl
@[simp] theorem State.setRdData_inputs (s : State) (w : Word) : (s.setRdData w).inputs = s.inputs := rfl
@[simp] theorem State.setRdData_out (s : State) (w : Word) : (s.setRdData w).out = { s.out with rdData := some w } := rfl

@[simp] theorem State.beginStep_crc (s : State) (rest : List Input) : (s.beginStep rest).crc = s.crc := rfl
@[simp] theorem State.beginStep_uaddr (s : State) (rest : List Input) : (s.beginStep rest).uaddr = s.uaddr := rfl
@[simp] theorem State.beginStep_ufc (s : State) (rest : List Input) : (s.beginStep rest).ufc = s.ufc := rfl
@[simp] theorem State.beginStep_plen (s : State) (rest : List Input) : (s.beginStep rest).plen = s.plen := rfl
@[simp] theorem State.beginStep_txlen (s : State) (rest : List Input) : (s.beginStep rest).txlen = s.txlen := rfl
@[simp] theorem State.beginStep_rxlen (s : State) (rest : List Input) : (s.beginStep rest).rxlen = s.rxlen := rfl
@[simp] theorem State.beginStep_st (s : State) (rest : List Input) : (s.beginStep rest).st = s.st := rfl
@[simp] theorem State.beginStep_txcnt (s : State) (rest : List Input) : (s.beginStep rest).txcnt = s.txcnt := rfl
@[simp] theorem State.beginStep_rxtgt (s : State) (rest : List Input) : (s.beginStep rest).rxtgt = s.rxtgt := rfl
@[simp] theorem State.beginStep_pred (s : State) (rest : List Input) : (s.beginStep rest).pred = s.pred := rfl
@[simp] theorem State.beginStep_waitcnt (s : State) (rest : List Input) : (s.beginStep rest).waitcnt = s.waitcnt := rfl
@[simp] theorem State.beginStep_baud (s : State) (rest : List Input) : (s.beginStep rest).baud = s.baud := rfl
@[simp] theorem State.beginStep_doneBit (s : State) (rest : List Input) : (s.beginStep rest).doneBit = s.doneBit := rfl
@[simp] theorem State.beginStep_openBit (s : State) (rest : List Input) : (s.beginStep rest).openBit = s.openBit := rfl
@[simp] theorem State.beginStep_err (s : State) (rest : List Input) : (s.beginStep rest).err = s.err := rfl
@[simp] theorem State.beginStep_mem (s : State) (rest : List Input) : (s.beginStep rest).mem = s.mem := rfl
@[simp] theorem State.beginStep_fcTable (s : State) (rest : List Input) : (s.beginStep rest).fcTable = s.fcTable := rfl
@[simp] theorem State.beginStep_inputs (s : State) (rest : List Input) : (s.beginStep rest).inputs = rest := rfl
@[simp] theorem State.beginStep_out (s : State) (rest : List Input) : (s.beginStep rest).out = Outputs.quiet := rfl

@[simp] theorem State.reset_crc : State.reset.crc = 0xFFFF := rfl
@[simp] theorem State.reset_uaddr : State.reset.uaddr = 0 := rfl
@[simp] theorem State.reset_ufc : State.reset.ufc = 0 := rfl
@[simp] theorem State.reset_plen : State.reset.plen = 0 := rfl
@[simp] theorem State.reset_txlen : State.reset.txlen = 0 := rfl
@[simp] theorem State.reset_rxlen : State.reset.rxlen = 0 := rfl
@[simp] theorem State.reset_st : State.reset.st = .idle := rfl
@[simp] theorem State.reset_txcnt : State.reset.txcnt = 0 := rfl
@[simp] theorem State.reset_rxtgt : State.reset.rxtgt = 0 := rfl
@[simp] theorem State.reset_pred : State.reset.pred = 0 := rfl
@[simp] theorem State.reset_waitcnt : State.reset.waitcnt = 0 := rfl
@[simp] theorem State.reset_baud : State.reset.baud = 0 := rfl
@[simp] theorem State.reset_doneBit : State.reset.doneBit = false := rfl
@[simp] theorem State.reset_openBit : State.reset.openBit = false := rfl
@[simp] theorem State.reset_err : State.reset.err = .none := rfl
@[simp] theorem State.reset_mem : State.reset.mem = [] := rfl
@[simp] theorem State.reset_fcTable : State.reset.fcTable = config.fcTable := rfl
@[simp] theorem State.reset_inputs : State.reset.inputs = [] := rfl
@[simp] theorem State.reset_out : State.reset.out = Outputs.quiet := rfl

@[simp] theorem State.busy_eq_false_iff (s : State) : s.busy = false ↔ s.st = .idle := by simp [State.busy]

@[simp] theorem State.busy_eq_true_iff (s : State) : s.busy = true ↔ s.st ≠ .idle := by simp [State.busy]

end Machine

end Sys2Proof
end

