-- ==== Sys2Proof/Laws/Encoding.lean ====
section
/-! SUPPORT. The laws of the encodings: the fields of a transaction, and the two ways of saying what a command word is. -/

namespace Sys2Proof

@[simp] theorem Transaction.we_make (we : Bool) (idx : Index) (data : Word) :
    Transaction.we (Transaction.make we idx data) = we := by
  unfold Transaction.we Transaction.make
  rw [BitVec.getLsbD_append, if_neg (by omega), BitVec.getLsbD_append, if_neg (by omega)]
  simp

@[simp] theorem Transaction.idx_make (we : Bool) (idx : Index) (data : Word) :
    Transaction.idx (Transaction.make we idx data) = idx := by
  ext i hi
  unfold Transaction.idx Transaction.make
  rw [BitVec.getElem_extractLsb', BitVec.getLsbD_append, if_neg (by omega), BitVec.getLsbD_append, if_pos (by omega)]
  simp [BitVec.getLsbD_eq_getElem hi]

@[simp] theorem Transaction.data_make (we : Bool) (idx : Index) (data : Word) :
    Transaction.data (Transaction.make we idx data) = data := by
  ext i hi
  unfold Transaction.data Transaction.make
  rw [BitVec.getElem_extractLsb', BitVec.getLsbD_append, if_pos (by omega)]
  simp [BitVec.getLsbD_eq_getElem hi]

/-- A transaction is its three fields. -/
theorem Transaction.make_fields (t : Transaction) :
    Transaction.make (Transaction.we t) (Transaction.idx t) (Transaction.data t) = t := by
  apply BitVec.eq_of_getLsbD_eq
  intro i hi
  unfold Transaction.make Transaction.we Transaction.idx Transaction.data
  rw [BitVec.getLsbD_append]
  split
  · simp; omega
  · rw [BitVec.getLsbD_append]
    split
    · rename_i h1 h2; simp; rw [show 32 + (i - 32) = i by omega]; simp [h2]
    · have : i = 44 := by omega
      subst this; simp

theorem and_mask_all (v : Word) : v &&& 0xFFFFFFFF#32 = v := by
  have : 0xFFFFFFFF#32 = BitVec.allOnes 32 := by decide
  rw [this, BitVec.and_allOnes]

theorem and_mask_push (v : Word) : v &&& 0xFFFFFF00#32 = 0x00001100#32 ↔ v.toNat / 256 = 0x11 := by
  have hm : ∀ j : Fin 32, (0xFFFFFF00#32)[j.1] = decide (8 ≤ j.1) := by decide
  have e : v &&& 0xFFFFFF00#32 = (v >>> 8) <<< 8 := by
    ext i hi
    have hm : (0xFFFFFF00#32)[i] = decide (8 ≤ i) := hm ⟨i, hi⟩
    by_cases h : i < 8
    · simp [hm, h]
    · simp [hm, h]
      rw [show 8 + (i - 8) = i by omega]; simp [BitVec.getLsbD_eq_getElem hi]; omega
  rw [e, ← BitVec.toNat_inj, BitVec.toNat_shiftLeft, BitVec.toNat_ushiftRight, Nat.shiftLeft_eq,
    Nat.shiftRight_eq_div_pow]
  have := v.isLt
  simp only [BitVec.toNat_ofNat]
  rw [Nat.mod_eq_of_lt (by omega)]
  omega

/-- Decoding a command word as a decision on its value. -/
theorem decodeCommand_eq (v : Word) : decodeCommand v =
    if v.toNat = 0x1000 then some .crcReset
    else if v.toNat / 256 = 0x11 then some (.crcPush (v.extractLsb' 0 8))
    else if v.toNat = 0x2000 then some .frmEncode
    else if v.toNat = 0x2100 then some .frmDecode
    else if v.toNat = 0x2200 then some .frmVerify
    else if v.toNat = 0x3000 then some .seqPredict
    else if v.toNat = 0x3100 then some .seqXchg
    else if v.toNat = 0x3200 then some .seqClose
    else none := by
  have hn : ∀ n : Nat, n < 2 ^ 32 → (v = BitVec.ofNat 32 n ↔ v.toNat = n) := by
    intro n hn; rw [← BitVec.toNat_inj, BitVec.toNat_ofNat, Nat.mod_eq_of_lt hn]
  simp only [decodeCommand, commandRows, List.find?_cons, CommandRow.accepts, BitVec.ofNat_eq_ofNat, and_mask_all,
    and_mask_push, List.find?_nil]
  have e1 := hn 0x1000 (by decide)
  have e2 := hn 0x2000 (by decide)
  have e3 := hn 0x2100 (by decide)
  have e4 := hn 0x2200 (by decide)
  have e5 := hn 0x3000 (by decide)
  have e6 := hn 0x3100 (by decide)
  have e7 := hn 0x3200 (by decide)
  simp only [e1, e2, e3, e4, e5, e6, e7]
  split_ifs <;> simp_all [CommandOp.toInstr]

/-- The fields of R91 as a decision on the word's value. -/
theorem isCommandWord_iff (v : Word) : isCommandWord v = true ↔
    v.toNat = 0x1000 ∨ v.toNat / 256 = 0x11 ∨ v.toNat = 0x2000 ∨ v.toNat = 0x2100 ∨ v.toNat = 0x2200 ∨
    v.toNat = 0x3000 ∨ v.toNat = 0x3100 ∨ v.toNat = 0x3200 := by
  have := v.isLt
  simp only [isCommandWord, Bool.and_eq_true, Bool.or_eq_true, decide_eq_true_eq, ← BitVec.toNat_inj,
    BitVec.extractLsb'_toNat, Nat.shiftRight_eq_div_pow, BitVec.ofNat_eq_ofNat, BitVec.toNat_ofNat]
  omega

/-- What a command word decodes to is a command. -/
theorem isCommand_of_decodeCommand {v : Word} {i : Instr} (h : decodeCommand v = some i) :
    Machine.isCommand i = true := by
  simp only [decodeCommand, Option.map_eq_some_iff] at h
  obtain ⟨r, -, rfl⟩ := h
  cases r.op <;> rfl

theorem toNat_pushWord (b : Byte) : (0x000011#24 ++ b).toNat = 0x1100 + b.toNat := by
  rw [BitVec.toNat_append, ← Nat.shiftLeft_add_eq_or_of_lt b.isLt]
  rfl

theorem decodeCommand_pushWord (b : Byte) : decodeCommand (0x000011#24 ++ b) = some (.crcPush b) := by
  have := b.isLt
  rw [decodeCommand_eq, toNat_pushWord, if_neg (by omega), if_pos (by omega)]
  congr 2
  ext i hi
  rw [BitVec.getElem_extractLsb', BitVec.getLsbD_append, if_pos (by omega)]
  simp [BitVec.getLsbD_eq_getElem hi]

/-- A command's own word decodes to it. -/
theorem decodeCommand_of_encodeCommand {i : Instr} {w : Word} (h : encodeCommand i = some w) :
    decodeCommand w = some i := by
  cases i <;> simp [encodeCommand] at h <;> subst h <;> first | decide | exact decodeCommand_pushWord _

end Sys2Proof
end

