-- ==== Sys2Proof/Laws/Memory.lean ====
section
/-! SUPPORT. The laws of memory: reading after writing, the canonical form, and one spec lemma for each of the four
buffer accesses. -/

namespace Sys2Proof.Machine

@[simp] theorem Memory.read_nil (a : Nat) : Memory.read [] a = none := rfl

/-- A read after a write to the same index gives the byte written. -/
@[simp] theorem Memory.read_write_same (m : Memory) (a : Nat) (b : Byte) : Memory.read (Memory.write m a b) a = some b := by
  induction m with
  | nil => simp [Memory.write, Memory.read]
  | cons c m ih =>
    obtain ⟨k, v⟩ := c
    simp only [Memory.write]
    split
    · simp [Memory.read]
    · split
      · simp [Memory.read]
      · simp_all [Memory.read]

/-- A write leaves every other index alone. -/
theorem Memory.read_write_other {a a' : Nat} (h : a' ≠ a) (m : Memory) (b : Byte) :
    Memory.read (Memory.write m a b) a' = Memory.read m a' := by
  induction m with
  | nil => simp [Memory.write, Memory.read, h]
  | cons c m ih =>
    obtain ⟨k, v⟩ := c
    simp only [Memory.write]
    split
    · simp [Memory.read, h]
    · split
      · rename_i h2; subst h2; simp [Memory.read, h]
      · simp [Memory.read, ih]

/-- Reading after a write, both cases. -/
theorem Memory.read_write (m : Memory) (a a' : Nat) (b : Byte) :
    Memory.read (Memory.write m a b) a' = if a' = a then some b else Memory.read m a' := by
  split
  · rename_i h; subst h; simp
  · rename_i h; exact Memory.read_write_other h m b

theorem Memory.wfAbove_write {lo a : Nat} (m : Memory) (b : Byte) (hlo : lo < a) (ha : isCellAddr a = true)
    (h : Memory.wfAbove lo m = true) : Memory.wfAbove lo (Memory.write m a b) = true := by
  induction m generalizing lo with
  | nil => simp [Memory.write, Memory.wfAbove, hlo, ha]
  | cons c m ih =>
    obtain ⟨k, v⟩ := c
    simp only [Memory.wfAbove, Bool.and_eq_true, decide_eq_true_eq] at h
    obtain ⟨⟨h1, h2⟩, h3⟩ := h
    simp only [Memory.write]
    split
    · simp_all [Memory.wfAbove]
    · split
      · simp_all [Memory.wfAbove]
      · have : k < a := by omega
        simp [Memory.wfAbove, h1, h2, ih this h3]

theorem Memory.read_eq_none_of_wfAbove {lo a : Nat} (m : Memory) (h : Memory.wfAbove lo m = true) (ha : a ≤ lo) :
    Memory.read m a = none := by
  induction m generalizing lo with
  | nil => rfl
  | cons c m ih =>
    obtain ⟨k, v⟩ := c
    simp only [Memory.wfAbove, Bool.and_eq_true, decide_eq_true_eq] at h
    obtain ⟨⟨h1, -⟩, h3⟩ := h
    have : a ≠ k := by omega
    simp [Memory.read, this, ih h3 (by omega)]

/-- Two memories in canonical form that read alike everywhere are equal. -/
theorem Memory.ext_of_wfAbove {lo : Nat} (m m' : Memory) (h : Memory.wfAbove lo m = true)
    (h' : Memory.wfAbove lo m' = true) (hr : ∀ a, Memory.read m a = Memory.read m' a) : m = m' := by
  induction m generalizing lo m' with
  | nil =>
    cases m' with
    | nil => rfl
    | cons c m' => have := hr c.1; simp [Memory.read] at this
  | cons c m ih =>
    obtain ⟨k, v⟩ := c
    cases m' with
    | nil => have := hr k; simp [Memory.read] at this
    | cons c' m' =>
      obtain ⟨k', v'⟩ := c'
      simp only [Memory.wfAbove, Bool.and_eq_true, decide_eq_true_eq] at h h'
      have key : k = k' := by
        rcases Nat.lt_trichotomy k k' with hk | hk | hk
        · have := hr k
          rw [Memory.read, if_pos rfl, Memory.read, if_neg (by omega),
            Memory.read_eq_none_of_wfAbove m' h'.2 (by omega)] at this
          cases this
        · exact hk
        · have := hr k'
          rw [Memory.read, if_neg (by omega), Memory.read_eq_none_of_wfAbove m h.2 (by omega), Memory.read,
            if_pos rfl] at this
          cases this
      subst key
      have hv : v = v' := by have := hr k; simpa [Memory.read] using this
      subst hv
      congr 1
      refine ih m' h.2 h'.2 fun a => ?_
      by_cases ha : a = k
      · subst ha
        rw [Memory.read_eq_none_of_wfAbove m h.2 (Nat.le_refl _), Memory.read_eq_none_of_wfAbove m' h'.2 (Nat.le_refl _)]
      · have := hr a
        simpa [Memory.read, ha] using this

/-- Equal reads mean equal memories, in canonical form. -/
theorem Memory.ext_of_wf (m m' : Memory) (h : Memory.wf m = true) (h' : Memory.wf m' = true)
    (hr : ∀ a, Memory.read m a = Memory.read m' a) : m = m' :=
  Memory.ext_of_wfAbove m m' h h' hr

/-- The indices of buffer cells are 0x100 to 0x3FB (20_memory R60). -/
theorem isCellAddr_iff (a : Nat) : isCellAddr a = true ↔ 0x100 ≤ a ∧ a < 0x3FC := by
  unfold isCellAddr
  rw [Bool.and_eq_true, decide_eq_true_eq, decide_eq_true_eq]
  exact Iff.rfl

/-- A write of a buffer cell keeps the canonical form. -/
theorem Memory.write_wf {a : Nat} (m : Memory) (b : Byte) (ha : isCellAddr a = true) (h : Memory.wf m = true) :
    Memory.wf (Memory.write m a b) = true := by
  have h0 : 0x100 ≤ a := ((isCellAddr_iff a).1 ha).1
  exact Memory.wfAbove_write m b (by omega) ha h

theorem State.reset_mem_wf : Memory.wf State.reset.mem = true := rfl

theorem Buf.size_eq (b : Buf) : b.size = if b = .pdat then 252 else 256 := by cases b <;> rfl

theorem Buf.size_le (b : Buf) : b.size ≤ 256 := by cases b <;> decide

/-- A buffer cell's index is a buffer cell's index. -/
theorem Buf.addr_isCellAddr {b : Buf} {i : Nat} (h : i < b.size) : isCellAddr (b.addr i) = true := by
  rw [isCellAddr_iff]
  cases b <;> simp [Buf.addr, Buf.base, Buf.size] at h ⊢ <;> omega

theorem Buf.addr_add (b : Buf) (i k : Nat) : b.addr (i + k) = b.addr i + k := by simp [Buf.addr, Nat.add_assoc]

/-- Different cells have different indices. -/
theorem Buf.addr_inj {b b' : Buf} {i i' : Nat} (h : i < b.size) (h' : i' < b'.size) (e : b.addr i = b'.addr i') :
    b = b' ∧ i = i' := by
  cases b <;> cases b' <;> simp_all [Buf.addr, Buf.base, Buf.size] <;> omega

/-! ## One cell -/

theorem readCell_of_read {m : Memory} {b : Buf} {i : Nat} {v : Byte} (h : i < b.size)
    (hv : Memory.read m (b.addr i) = some v) : readCell m b i = .ok v := by simp [readCell, h, hv]

theorem readCell_of_unwritten {m : Memory} {b : Buf} {i : Nat} (h : i < b.size)
    (hv : Memory.read m (b.addr i) = none) : readCell m b i = .refused .unwrittenCell := by simp [readCell, h, hv]

/-- Everything a read of one cell can answer. -/
theorem readCell_cases (m : Memory) (b : Buf) (i : Nat) :
    (∃ v, i < b.size ∧ Memory.read m (b.addr i) = some v ∧ readCell m b i = .ok v) ∨
    (i < b.size ∧ Memory.read m (b.addr i) = none ∧ readCell m b i = .refused .unwrittenCell) ∨
    (b.size ≤ i ∧ readCell m b i = .fault .noSuchCell) := by
  by_cases h : i < b.size
  · cases hv : Memory.read m (b.addr i) with
    | none => exact .inr (.inl ⟨h, rfl, readCell_of_unwritten h hv⟩)
    | some v => exact .inl ⟨v, h, rfl, readCell_of_read h hv⟩
  · exact .inr (.inr ⟨by omega, by simp [readCell, h]⟩)

theorem writeCell_ok {m : Memory} {b : Buf} {i : Nat} (h : i < b.size) (v : Byte) :
    writeCell m b i v = .ok (Memory.write m (b.addr i) v) := by simp [writeCell, h]

/-! ## Cells in a row -/

/-- Reading `n` cells that hold the bytes of `l`. -/
theorem readCells_of_reads {m : Memory} {b : Buf} (l : List Byte) (i : Nat) (h : i + l.length ≤ b.size)
    (hl : ∀ k, (hk : k < l.length) → Memory.read m (b.addr (i + k)) = some l[k]) :
    readCells m b i l.length = .ok l := by
  induction l generalizing i with
  | nil => rfl
  | cons v l ih =>
    simp only [List.length_cons] at h
    have h0 := hl 0 (by simp)
    have : readCells m b (i + 1) l.length = .ok l :=
      ih (i + 1) (by omega) fun k hk => by
        have := hl (k + 1) (by simpa using hk)
        simpa [Nat.add_assoc, Nat.add_comm 1 k] using this
    simp only [List.length_cons, readCells, readCell_of_read (by omega : i < b.size) (by simpa using h0), Access.bind, this]

/-- Everything a read of `n` cells inside a buffer can answer. -/
theorem readCells_cases (m : Memory) (b : Buf) (i n : Nat) (h : i + n ≤ b.size) :
    (∃ l, l.length = n ∧ readCells m b i n = .ok l ∧
      ∀ k, (hk : k < l.length) → Memory.read m (b.addr (i + k)) = some l[k]) ∨
    ((∃ k, k < n ∧ Memory.read m (b.addr (i + k)) = none) ∧ readCells m b i n = .refused .unwrittenCell) := by
  induction n generalizing i with
  | zero => exact .inl ⟨[], rfl, rfl, fun k hk => absurd hk (by simp)⟩
  | succ n ih =>
    rcases readCell_cases m b i with ⟨v, -, hv, he⟩ | ⟨-, hv, he⟩ | ⟨hb, -⟩
    · rcases ih (i + 1) (by omega) with ⟨l, hl, hr, hk⟩ | ⟨⟨k, hk, hn⟩, hr⟩
      · refine .inl ⟨v :: l, by simp [hl], by simp [readCells, he, Access.bind, hr], fun k hk' => ?_⟩
        cases k with
        | zero => simpa using hv
        | succ k =>
          have := hk k (by simpa using hk')
          simpa [Nat.add_assoc, Nat.add_comm 1 k] using this
      · exact .inr ⟨⟨k + 1, by omega, by simpa [Nat.add_assoc, Nat.add_comm 1 k] using hn⟩,
          by simp [readCells, he, Access.bind, hr]⟩
    · exact .inr ⟨⟨0, by omega, by simpa using hv⟩, by simp [readCells, he, Access.bind]⟩
    · omega

/-- Writing the bytes of `l` inside a buffer: it completes, stores exactly these bytes, and keeps the canonical form. -/
theorem writeCells_spec (m : Memory) (b : Buf) (i : Nat) (l : List Byte) (h : i + l.length ≤ b.size) :
    ∃ m', writeCells m b i l = .ok m' ∧
      (∀ k, (hk : k < l.length) → Memory.read m' (b.addr (i + k)) = some l[k]) ∧
      (∀ a, a < b.addr i ∨ b.addr (i + l.length) ≤ a → Memory.read m' a = Memory.read m a) ∧
      (Memory.wf m = true → Memory.wf m' = true) := by
  induction l generalizing m i with
  | nil => exact ⟨m, rfl, fun k hk => absurd hk (by simp), fun _ _ => rfl, id⟩
  | cons v l ih =>
    simp only [List.length_cons] at h
    have hi : i < b.size := by omega
    obtain ⟨m', he, hr, hf, hw⟩ := ih (Memory.write m (b.addr i) v) (i + 1) (by omega)
    refine ⟨m', by simp [writeCells, writeCell_ok hi, Access.bind, he], fun k hk => ?_, fun a ha => ?_, fun hm => ?_⟩
    · cases k with
      | zero =>
        have := hf (b.addr i) (.inl (by simp [Buf.addr]))
        simp [this]
      | succ k =>
        have := hr k (by simpa using hk)
        simpa [Nat.add_assoc, Nat.add_comm 1 k] using this
    · simp only [List.length_cons, Buf.addr_add] at ha hf
      rw [hf a (by omega), Memory.read_write_other (by omega)]
    · exact hw (Memory.write_wf m v (Buf.addr_isCellAddr hi) hm)

end Sys2Proof.Machine
end

