-- ==== Sys2Proof/Laws/Ops.lean ====
section
/-! SUPPORT. The laws of the shared operations: going on with an access, the guard on host writes, raising and
succeeding, and the map of the host index space. -/

namespace Sys2Proof.Machine

@[simp] theorem Access.andThen_ok {α : Type} (a : α) (k : α → Result) : (Access.ok a).andThen k = k a := rfl

@[simp] theorem Access.andThen_fault {α : Type} (f : Fault) (k : α → Result) :
    (Access.fault f).andThen k = .fault f := rfl

@[simp] theorem Access.andThen_refused {α : Type} (r : Refusal) (k : α → Result) :
    (Access.refused r).andThen k = .refused r := rfl

@[simp] theorem Access.bind_ok {α β : Type} (a : α) (k : α → Access β) : (Access.ok a).bind k = k a := rfl

@[simp] theorem Access.bind_fault {α β : Type} (f : Fault) (k : α → Access β) :
    (Access.fault f).bind k = .fault f := rfl

@[simp] theorem Access.bind_refused {α β : Type} (r : Refusal) (k : α → Access β) :
    (Access.refused r).bind k = .refused r := rfl

/-- A step that goes on with an access answers next only if the access gave a value. -/
theorem Access.andThen_next {α : Type} {x : Access α} {k : α → Result} {t : State} (h : x.andThen k = .next t) :
    ∃ a, x = .ok a ∧ k a = .next t := by
  cases x with
  | ok a => exact ⟨a, rfl, h⟩
  | fault f => cases h
  | refused r => cases h

/-- Where a step that goes on with an access faults. -/
theorem Access.andThen_fault_cases {α : Type} {x : Access α} {k : α → Result} {f : Fault}
    (h : x.andThen k = .fault f) : x = .fault f ∨ ∃ a, x = .ok a ∧ k a = .fault f := by
  cases x with
  | ok a => exact .inr ⟨a, rfl, h⟩
  | fault g => cases h; exact .inl rfl
  | refused r => cases h

/-- A chain of accesses gives a value only if both do. -/
theorem Access.bind_eq_ok {α β : Type} {x : Access α} {k : α → Access β} {b : β} (h : x.bind k = .ok b) :
    ∃ a, x = .ok a ∧ k a = .ok b := by
  cases x with
  | ok a => exact ⟨a, rfl, h⟩
  | fault f => cases h
  | refused r => cases h

@[simp] theorem resultThen_next (s : State) (k : State → Result) : resultThen (.next s) k = k s := rfl

/-- A second step within a cycle answers next only if the first did. -/
theorem resultThen_eq_next {x : Result} {k : State → Result} {t : State} (h : resultThen x k = .next t) :
    ∃ s, x = .next s ∧ k s = .next t := by
  cases x with
  | next s => exact ⟨s, rfl, h⟩
  | fault f => cases h
  | refused r => cases h

theorem whenIdle_of_idle {s : State} (h : s.st = .idle) (k : Result) : whenIdle s k = k := by
  simp [whenIdle, State.busy, h]

theorem whenIdle_of_busy {s : State} (h : s.st ≠ .idle) (k : Result) :
    whenIdle s k = .refused .hostWriteWhileBusy := by simp [whenIdle, State.busy, h]

@[simp] theorem whenIdle_whenIdle (s : State) (k : Result) : whenIdle s (whenIdle s k) = whenIdle s k := by
  by_cases h : s.st = .idle
  · rw [whenIdle_of_idle h]
  · rw [whenIdle_of_busy h, whenIdle_of_busy h]

/-- A guarded step answers next only in `IDLE`. -/
theorem whenIdle_next {s t : State} {k : Result} (h : whenIdle s k = .next t) : s.st = .idle ∧ k = .next t := by
  by_cases hs : s.st = .idle
  · exact ⟨hs, by rwa [whenIdle_of_idle hs] at h⟩
  · rw [whenIdle_of_busy hs] at h; cases h

theorem raise_eq (e : Err) (s : State) : raise e s = .next { s with err := e } := rfl

theorem succeed_eq (s : State) : succeed s = .next { s with err := .none } := rfl

/-! ## The host index space -/

theorem regsInOrder_none {n : Nat} (h : 16 ≤ n) : regsInOrder[n]? = none := by
  rw [List.getElem?_eq_none]; simpa [regsInOrder] using h

/-- The index of a scalar register names it. -/
theorem hostTarget_of_reg {idx : Index} {r : Reg} (h : regsInOrder[idx.toNat]? = some r) : hostTarget idx = .reg r := by
  simp [hostTarget, h]

/-- The index of a buffer cell names it. -/
theorem hostTarget_of_cell (b : Buf) (i : Nat) (h : i < b.size) : hostTarget (BitVec.ofNat 12 (b.addr i)) = .cell b i := by
  have ht : (BitVec.ofNat 12 (b.addr i)).toNat = b.addr i := by
    rw [BitVec.toNat_ofNat]; apply Nat.mod_eq_of_lt
    cases b <;> simp [Buf.addr, Buf.base, Buf.size] at h ⊢ <;> omega
  unfold hostTarget
  rw [ht]
  dsimp only
  rw [regsInOrder_none (by cases b <;> simp [Buf.addr, Buf.base] <;> omega)]
  cases b <;> simp [Buf.addr, Buf.base, Buf.size] at h ⊢ <;> (try split_ifs) <;> first | omega | rfl

/-- The unmapped indices. -/
theorem hostTarget_of_unmapped {idx : Index} (h : (0x010 ≤ idx.toNat ∧ idx.toNat < 0x100) ∨ 0x3FC ≤ idx.toNat) :
    hostTarget idx = .unmapped := by
  unfold hostTarget
  dsimp only
  rw [regsInOrder_none (by omega)]
  simp only [Buf.base, Buf.size]
  split_ifs <;> first | rfl | (exfalso; omega)

/-- Only index 0x000 names `CMD`. -/
theorem eq_zero_of_hostTarget_cmd {idx : Index} (h : hostTarget idx = .reg .cmd) : idx = 0 := by
  have hr : ∀ n, n < 16 → regsInOrder[n]? = some .cmd → n = 0 := by decide
  unfold hostTarget at h
  dsimp only at h
  split at h
  · rename_i r hr'
    cases h
    have hlt : idx.toNat < 16 := by
      by_contra hge
      rw [regsInOrder_none (by omega)] at hr'; cases hr'
    exact BitVec.eq_of_toNat_eq (by simpa using hr _ hlt hr')
  · split_ifs at h

/-- A named cell exists. -/
theorem lt_size_of_hostTarget_cell {idx : Index} {b : Buf} {i : Nat} (h : hostTarget idx = .cell b i) : i < b.size := by
  unfold hostTarget at h
  dsimp only at h
  split at h
  · cases h
  · simp only [Buf.base, Buf.size] at h
    split_ifs at h <;> cases h <;> simp only [Buf.size] <;> omega

/-- Storing one byte, as the statements say it. -/
theorem State.stored_write (s : State) (b : Buf) (i : Nat) (v : Byte) :
    s.stored b i [v] (Memory.write s.mem (b.addr i) v) := by
  refine ⟨fun k hk => ?_, fun a ha => ?_⟩
  · simp only [List.length_cons, List.length_nil, Nat.zero_add, Nat.lt_one_iff] at hk; subst hk; simp
  · simp only [List.length_cons, List.length_nil, Buf.addr_add] at ha
    exact Memory.read_write_other (by omega) _ _

end Sys2Proof.Machine
end

