-- ==== Sys2Proof/Laws/Commands.lean ====
section
/-! SUPPORT. One inversion lemma per instruction: if it answers a next state, this is the state. They say everything the
instruction can do, and later proofs cite them instead of unfolding the meaning. -/

namespace Sys2Proof.Machine

theorem crcReset_next {s t : State} (h : exec .crcReset s = .next t) :
    s.st = .idle ∧ t = { s with crc := 0xFFFF, err := .none } := by
  obtain ⟨h1, h2⟩ := whenIdle_next h
  exact ⟨h1, by cases h2; rfl⟩

theorem crcPush_next {b : Byte} {s t : State} (h : exec (.crcPush b) s = .next t) :
    s.st = .idle ∧ t = { s with crc := crcStep s.crc b, err := .none } := by
  obtain ⟨h1, h2⟩ := whenIdle_next h
  exact ⟨h1, by cases h2; rfl⟩

theorem crcValue_next {s t : State} (h : exec .crcValue s = .next t) : t = s.returning (s.crc.setWidth 32) := by
  cases h; rfl

theorem frmEncode_next {s t : State} (h : exec .frmEncode s = .next t) : s.st = .idle ∧
    ((252 < s.plen.toNat ∧ t = { s with err := .frameTooLong }) ∨
     (s.plen.toNat ≤ 252 ∧ ∃ d m, readCells s.mem .pdat 0 s.plen.toNat = .ok d ∧
      writeCells s.mem .txbuf 0 (frameOf s.uaddr s.ufc d) = .ok m ∧
      t = { s with
        crc := crc16 (s.uaddr :: s.ufc :: d), mem := m, txlen := BitVec.ofNat 16 (s.plen.toNat + 4), err := .none })) := by
  obtain ⟨h1, h2⟩ := whenIdle_next h
  refine ⟨h1, ?_⟩
  dsimp only at h2
  split at h2
  · rename_i h3
    exact .inl ⟨by simp at h3; omega, by cases h2; rfl⟩
  · rename_i h3
    obtain ⟨d, hd, h4⟩ := Access.andThen_next h2
    obtain ⟨m, hm, h5⟩ := Access.andThen_next h4
    exact .inr ⟨by simp at h3; omega, d, m, hd, hm, by cases h5; rfl⟩

theorem frmDecode_next {s t : State} (h : exec .frmDecode s = .next t) : s.st = .idle ∧
    ((s.rxlen.toNat < 4 ∧ t = { s with err := .frameTooShort }) ∨
     (256 < s.rxlen.toNat ∧ t = { s with err := .frameTooLong }) ∨
     (4 ≤ s.rxlen.toNat ∧ s.rxlen.toNat ≤ 256 ∧ ∃ f, readCells s.mem .rxbuf 0 s.rxlen.toNat = .ok f ∧
      (((byteAt f (s.rxlen.toNat - 2) ≠ lo8 (crc16 (f.take (s.rxlen.toNat - 2))) ∨
          byteAt f (s.rxlen.toNat - 1) ≠ hi8 (crc16 (f.take (s.rxlen.toNat - 2)))) ∧
         t = { s with crc := crc16 (f.take (s.rxlen.toNat - 2)), err := .crcMismatch }) ∨
       (byteAt f (s.rxlen.toNat - 2) = lo8 (crc16 (f.take (s.rxlen.toNat - 2))) ∧
         byteAt f (s.rxlen.toNat - 1) = hi8 (crc16 (f.take (s.rxlen.toNat - 2))) ∧
         ∃ m, writeCells s.mem .pdat 0 ((f.drop 2).take (s.rxlen.toNat - 4)) = .ok m ∧
         t = { s with
           crc := crc16 (f.take (s.rxlen.toNat - 2)), uaddr := byteAt f 0, ufc := byteAt f 1, mem := m,
           plen := BitVec.ofNat 16 (s.rxlen.toNat - 4), err := .none })))) := by
  obtain ⟨h1, h2⟩ := whenIdle_next h
  refine ⟨h1, ?_⟩
  dsimp only at h2
  split at h2
  · exact .inl ⟨‹_›, by cases h2; rfl⟩
  · split at h2
    · exact .inr (.inl ⟨‹_›, by cases h2; rfl⟩)
    · rename_i h3 h4
      obtain ⟨f, hf, h5⟩ := Access.andThen_next h2
      refine .inr (.inr ⟨by simp at h3; omega, by simp at h4; omega, f, hf, ?_⟩)
      split at h5
      · exact .inl ⟨‹_›, by cases h5; rfl⟩
      · rename_i h6
        push Not at h6
        obtain ⟨m, hm, h7⟩ := Access.andThen_next h5
        exact .inr ⟨h6.1, h6.2, m, hm, by cases h7; rfl⟩

theorem frmVerify_next {s t : State} (h : exec .frmVerify s = .next t) :
    s.st = .idle ∧ t = { s with err := t.err } := by
  obtain ⟨h1, h2⟩ := whenIdle_next h
  refine ⟨h1, ?_⟩
  split at h2
  · cases h2; rfl
  · split at h2
    · cases h2; rfl
    · obtain ⟨r, -, h3⟩ := Access.andThen_next h2
      obtain ⟨q, -, h4⟩ := Access.andThen_next h3
      split at h4 <;> cases h4 <;> rfl

/-- The common beginning of `SEQ.PREDICT` and `SEQ.XCHG`. -/
theorem withPrediction_next {s t : State} {k : Nat → Result} (h : withPrediction s k = .next t) :
    (∃ e, reqCheck s = .ok (some e) ∧ t = { s with err := e }) ∨
    (∃ p, reqCheck s = .ok none ∧ predict s = .ok p ∧ k p = .next t) := by
  obtain ⟨e, he, h2⟩ := Access.andThen_next h
  cases e with
  | some e => exact .inl ⟨e, he, by cases h2; rfl⟩
  | none =>
    obtain ⟨p, hp, h3⟩ := Access.andThen_next h2
    exact .inr ⟨p, he, hp, h3⟩

theorem seqPredict_next {s t : State} (h : exec .seqPredict s = .next t) : s.st = .idle ∧
    ((∃ e, reqCheck s = .ok (some e) ∧ t = { s with err := e }) ∨
     (∃ p, reqCheck s = .ok none ∧ predict s = .ok p ∧ t = { s with pred := BitVec.ofNat 32 p, err := .none })) := by
  obtain ⟨h1, h2⟩ := whenIdle_next h
  refine ⟨h1, ?_⟩
  rcases withPrediction_next h2 with h | ⟨p, h3, h4, h5⟩
  · exact .inl h
  · exact .inr ⟨p, h3, h4, by cases h5; rfl⟩

theorem seqXchg_next {s t : State} (h : exec .seqXchg s = .next t) : s.st = .idle ∧
    ((∃ e, reqCheck s = .ok (some e) ∧ t = { s with err := e }) ∨
     (∃ p, reqCheck s = .ok none ∧ predict s = .ok p ∧
      t = { s with
        pred := BitVec.ofNat 32 p, txcnt := 0, rxlen := 0, rxtgt := 4, waitcnt := 0, doneBit := false, err := .none,
        st := if s.openBit then .send else .connect })) := by
  obtain ⟨h1, h2⟩ := whenIdle_next h
  refine ⟨h1, ?_⟩
  rcases withPrediction_next h2 with h | ⟨p, h3, h4, h5⟩
  · exact .inl h
  · exact .inr ⟨p, h3, h4, by cases h5; rfl⟩

theorem seqClose_next {s t : State} (h : exec .seqClose s = .next t) : s.st = .idle ∧
    t = { s with openBit := false, err := .none, out := { s.out with closeReq := s.openBit } } := by
  obtain ⟨h1, h2⟩ := whenIdle_next h
  exact ⟨h1, by cases h2; rfl⟩

theorem hostRd_next {idx : Index} {s t : State} (h : exec (.hostRd idx) s = .next t) : ∃ w, t = s.returning w := by
  simp only [exec, execHostRd] at h
  split at h
  · cases h; exact ⟨_, rfl⟩
  · obtain ⟨v, -, h2⟩ := Access.andThen_next h
    cases h2; exact ⟨_, rfl⟩
  · cases h

/-- Running a command word: `IllegalCommand`, or the command it names. -/
theorem runCommand_eq (v : Word) (s : State) : runCommand v s =
    match decodeCommand v with
    | none => whenIdle s (raise .illegalCommand s)
    | some i => exec i s := by
  unfold runCommand
  cases h : decodeCommand v with
  | none => rfl
  | some i =>
    have hc := isCommand_of_decodeCommand h
    cases i <;> first | rfl | (simp [isCommand, encodeCommand] at hc)

theorem hostWr_next {idx : Index} {v : Word} {s t : State} (h : exec (.hostWr idx v) s = .next t) : s.st = .idle ∧
    ((∃ r, r ≠ .cmd ∧ t = writeReg s v r ∧ idx ≠ 0) ∨
     (∃ (b : Buf) (i : Nat), i < b.size ∧
      t = { s with mem := Memory.write s.mem (b.addr i) (v.extractLsb' 0 8) } ∧ idx ≠ 0) ∨
     (idx = 0 ∧ ((decodeCommand v = none ∧ t = { s with err := .illegalCommand }) ∨
      ∃ i, decodeCommand v = some i ∧ isCommand i = true ∧ exec i s = .next t))) := by
  obtain ⟨h1, h2⟩ := whenIdle_next h
  refine ⟨h1, ?_⟩
  have h0 : hostTarget 0 = .reg .cmd := rfl
  split at h2
  · rename_i r hr
    split at h2
    · rename_i hc
      subst hc
      refine .inr (.inr ⟨eq_zero_of_hostTarget_cmd hr, ?_⟩)
      rw [runCommand_eq] at h2
      cases hd : decodeCommand v with
      | none =>
        rw [hd] at h2
        obtain ⟨-, h3⟩ := whenIdle_next h2
        exact .inl ⟨rfl, by cases h3; rfl⟩
      | some i =>
        rw [hd] at h2
        exact .inr ⟨i, rfl, isCommand_of_decodeCommand hd, h2⟩
    · rename_i hc
      refine .inl ⟨r, hc, by cases h2; rfl, ?_⟩
      rintro rfl
      rw [h0] at hr; cases hr; exact hc rfl
  · rename_i b i hb
    obtain ⟨m, hm, h3⟩ := Access.andThen_next h2
    have hi := lt_size_of_hostTarget_cell hb
    rw [writeCell_ok hi] at hm
    cases hm
    refine .inr (.inl ⟨b, i, hi, by cases h3; rfl, ?_⟩)
    rintro rfl
    rw [h0] at hb; cases hb
  · cases h2

end Sys2Proof.Machine
end

