-- ==== Sys2Proof/Laws/Events.lean ====
section
/-! SUPPORT. One inversion lemma per driver event, and the driver's part of a clock cycle. -/

namespace Sys2Proof.Machine

theorem failExchange_eq (s : State) : failExchange s = .next { s with rxlen := 0, err := .ioError, st := .idle } := rfl

theorem complete_eq (s : State) : complete s = .next { s with doneBit := true, st := .idle } := rfl

theorem openOk_next {s t : State} (h : onEvent .openOk s = .next t) :
    (s.st ≠ .connect ∧ t = s) ∨ (s.st = .connect ∧ t = { s with openBit := true, st := .send }) := by
  simp only [onEvent, onOpenOk] at h
  split at h <;> cases h <;> simp_all

theorem openFail_next {s t : State} (h : onEvent .openFail s = .next t) :
    (s.st ≠ .connect ∧ t = s) ∨ (s.st = .connect ∧ t = { s with rxlen := 0, err := .ioError, st := .idle }) := by
  simp only [onEvent, onOpenFail] at h
  split at h <;> cases h <;> simp_all

theorem txFail_next {s t : State} (h : onEvent .txFail s = .next t) :
    (s.st ≠ .send ∧ t = s) ∨ (s.st = .send ∧ t = { s with rxlen := 0, err := .ioError, st := .idle }) := by
  simp only [onEvent, onTxFail] at h
  split at h <;> cases h <;> simp_all

theorem rxFail_next {s t : State} (h : onEvent .rxFail s = .next t) :
    (¬(s.st = .readMin ∨ s.st = .readRem) ∧ t = s) ∨
    ((s.st = .readMin ∨ s.st = .readRem) ∧ t = { s with rxlen := 0, err := .ioError, st := .idle }) := by
  simp only [onEvent, onRxFail] at h
  split at h <;> cases h
  · exact .inr ⟨‹_›, rfl⟩
  · exact .inl ⟨‹_›, rfl⟩

theorem txAccept_next {s t : State} (h : onEvent .txAccept s = .next t) :
    (s.st ≠ .send ∧ t = s) ∨
    (s.st = .send ∧ ∃ b, readCell s.mem .txbuf s.txcnt.toNat = .ok b ∧
      ((s.txcnt + 1 ≠ s.txlen ∧ t = { s with txcnt := s.txcnt + 1, out := { s.out with txTaken := some b } }) ∨
       (s.txcnt + 1 = s.txlen ∧
        t = { s with
          txcnt := s.txcnt + 1, waitcnt := BitVec.ofNat 32 (waitUs s.baud.toNat s.txlen.toNat), st := .wait,
          out := { s.out with txTaken := some b } }))) := by
  simp only [onEvent, onTxAccept] at h
  split at h
  · obtain ⟨b, hb, h2⟩ := Access.andThen_next h
    refine .inr ⟨‹_›, b, hb, ?_⟩
    split at h2 <;> cases h2
    · exact .inr ⟨‹_›, rfl⟩
    · exact .inl ⟨‹_›, rfl⟩
  · cases h; exact .inl ⟨‹_›, rfl⟩

theorem tick_next {s t : State} (h : onEvent .tick s = .next t) :
    (s.st ≠ .wait ∧ t = s) ∨
    (s.st = .wait ∧ s.waitcnt - 1 = 0 ∧ t = { s with waitcnt := s.waitcnt - 1, st := .readMin }) ∨
    (s.st = .wait ∧ s.waitcnt - 1 ≠ 0 ∧ t = { s with waitcnt := s.waitcnt - 1 }) := by
  simp only [onEvent, onTick] at h
  split at h
  · split at h <;> cases h
    · exact .inr (.inl ⟨‹_›, ‹_›, rfl⟩)
    · exact .inr (.inr ⟨‹_›, ‹_›, rfl⟩)
  · cases h; exact .inl ⟨‹_›, rfl⟩

/-- Everything `RxByte` can do when it answers next. -/
theorem rxByte_next {b : Byte} {s t : State} (h : onEvent (.rxByte b) s = .next t) :
    (s.st ≠ .readMin ∧ s.st ≠ .readRem ∧ t = s) ∨
    (s.rxlen.toNat < 256 ∧ ∃ u, u = { s with
        mem := Memory.write s.mem (Buf.rxbuf.addr s.rxlen.toNat) b, rxlen := s.rxlen + 1 } ∧
      ((s.st = .readMin ∧ u.rxlen ≠ 4 ∧ t = u) ∨
       (s.st = .readMin ∧ u.rxlen = 4 ∧ ∃ n, target u = .ok n ∧
         ((n = 4 ∧ t = { u with rxtgt := 4, doneBit := true, st := .idle }) ∨
          (n ≠ 4 ∧ t = { u with rxtgt := BitVec.ofNat 16 n, st := .readRem }))) ∨
       (s.st = .readRem ∧ u.rxlen ≠ s.rxtgt ∧ t = u) ∨
       (s.st = .readRem ∧ u.rxlen = s.rxtgt ∧ t = { u with doneBit := true, st := .idle }))) := by
  simp only [onEvent, onRxByte] at h
  have hlt : ∀ m, writeCell s.mem .rxbuf s.rxlen.toNat b = .ok m →
      s.rxlen.toNat < 256 ∧ m = Memory.write s.mem (Buf.rxbuf.addr s.rxlen.toNat) b := by
    intro m hm
    unfold writeCell at hm
    split at hm
    · rename_i hlt; cases hm; exact ⟨by simpa using hlt, rfl⟩
    · cases hm
  have hst : (s.st ≠ .readMin ∧ s.st ≠ .readRem) ∨ s.st = .readMin ∨ s.st = .readRem := by cases s.st <;> simp
  rcases hst with hs | hs | hs
  · refine .inl ⟨hs.1, hs.2, ?_⟩
    split at h <;> first | (cases h; rfl) | (exfalso; simp_all)
  · rw [hs] at h
    obtain ⟨m, hm, h2⟩ := Access.andThen_next h
    obtain ⟨hl, rfl⟩ := hlt m hm
    refine .inr ⟨hl, _, rfl, ?_⟩
    beta_reduce at h2
    split at h2
    · rename_i h4
      obtain ⟨n, hn, h5⟩ := Access.andThen_next h2
      refine .inr (.inl ⟨hs, h4, n, hn, ?_⟩)
      dsimp only at h5
      split at h5 <;> cases h5
      · rename_i h6; exact .inl ⟨h6, by rw [h6]; rfl⟩
      · rename_i h6; exact .inr ⟨h6, rfl⟩
    · rename_i h4
      cases h2
      exact .inl ⟨hs, h4, rfl⟩
  · rw [hs] at h
    obtain ⟨m, hm, h2⟩ := Access.andThen_next h
    obtain ⟨hl, rfl⟩ := hlt m hm
    refine .inr ⟨hl, _, rfl, ?_⟩
    beta_reduce at h2
    split at h2 <;> cases h2
    · exact .inr (.inr (.inr ⟨hs, ‹_›, rfl⟩))
    · exact .inr (.inr (.inl ⟨hs, ‹_›, rfl⟩))

/-- `target` gives a value exactly when both second bytes are written, and then the value of `targetOf`. -/
theorem target_eq_ok {s : State} {n : Nat} (h : target s = .ok n) :
    ∃ fc r, s.cell .txbuf 1 = some fc ∧ s.cell .rxbuf 1 = some r ∧ n = targetOf fc r s.pred.toNat := by
  obtain ⟨fc, h1, h2⟩ := Access.bind_eq_ok h
  obtain ⟨r, h3, h4⟩ := Access.bind_eq_ok h2
  rcases readCell_cases s.mem .txbuf 1 with ⟨v, -, hv, he⟩ | ⟨-, -, he⟩ | ⟨hb, -⟩
  · rcases readCell_cases s.mem .rxbuf 1 with ⟨v', -, hv', he'⟩ | ⟨-, -, he'⟩ | ⟨hb', -⟩
    · rw [he] at h1; rw [he'] at h3; cases h1; cases h3; cases h4
      exact ⟨_, _, hv, hv', rfl⟩
    · rw [he'] at h3; cases h3
    · simp at hb'
  · rw [he] at h1; cases h1
  · simp at hb

theorem target_of_cells {s : State} {fc r : Byte} (h : s.cell .txbuf 1 = some fc) (h' : s.cell .rxbuf 1 = some r) :
    target s = .ok (targetOf fc r s.pred.toNat) := by
  simp only [target, readCell_of_read (by decide : 1 < Buf.txbuf.size) h,
    readCell_of_read (by decide : 1 < Buf.rxbuf.size) h', Access.bind_ok]

/-- The decided length is 4, 5, or the prediction between 5 and 256 (42_sequencer R183). -/
theorem targetOf_cases (fc r : Byte) (p : Nat) :
    targetOf fc r p = 4 ∨ targetOf fc r p = 5 ∨ (targetOf fc r p = p ∧ 4 < p ∧ p ≤ 256) := by
  unfold targetOf
  split
  · split
    · rename_i h; exact .inr (.inr ⟨rfl, by simpa using h.1, by simpa using h.2⟩)
    · exact .inl rfl
  · split
    · exact .inr (.inl rfl)
    · exact .inl rfl

/-- The driver's part of a clock cycle is one event, decided by the state. -/
theorem takeDriver_eq (p : Pins) (s : State) : takeDriver p s =
    match p.eventIn s.st with
    | some e => onEvent e s
    | none => .next s := by
  cases hs : s.st <;> simp only [takeDriver, failureEvent, dataEvent, openReq, txValid, rxReady, hs, Pins.eventIn]
  · cases p.tickUs <;> simp [onEvent, onTick, hs]
  · cases p.openFail <;> cases p.openOk <;> cases p.tickUs <;> simp [onEvent, onTick, hs]
  · cases p.txFail <;> cases p.txReady <;> cases p.tickUs <;> simp [onEvent, onTick, hs]
  · cases p.tickUs <;> simp
  · cases p.rxFail <;> cases p.rxValid <;> cases p.tickUs <;> simp [onEvent, onTick, hs]
  · cases p.rxFail <;> cases p.rxValid <;> cases p.tickUs <;> simp [onEvent, onTick, hs]

end Sys2Proof.Machine
end

