-- ==== Sys2Proof/Laws/PerInstr.lean ====
section
/-! SUPPORT. Statements made of every instruction as syntax, one lemma per constructor. -/

namespace Sys2Proof.Laws

/-- The first bit of a transaction tells writes from reads, and the index field tells commands from the rest: a
well-formed instruction has `we` = 1 exactly when it is no read, and its data is a command word under index 0x000
exactly when it is a command (30_encoding R92, R101). -/
def TransactionKind.Statement (i : Instr) : Prop :=
  i.wf = true →
    (Transaction.we (encode i) = false ↔ (∃ idx, i = .hostRd idx) ∨ i = .crcValue) ∧
    Machine.isCommand i =
      (Transaction.we (encode i) && decide (Transaction.idx (encode i) = 0x000) &&
        isCommandWord (Transaction.data (encode i)))

namespace TransactionKind

theorem crcReset : Statement .crcReset := fun _ => ⟨by simp [encode], by decide⟩

theorem crcPush (imm8 : Byte) : Statement (.crcPush imm8) := fun _ => by
  refine ⟨by simp [encode], ?_⟩
  have hw : isCommandWord (0x000011#24 ++ imm8) = true := by
    have := imm8.isLt
    rw [isCommandWord_iff, toNat_pushWord]
    omega
  simp [Machine.isCommand, encode, encodeCommand, hw]

theorem frmEncode : Statement .frmEncode := fun _ => ⟨by simp [encode], by decide⟩

theorem frmDecode : Statement .frmDecode := fun _ => ⟨by simp [encode], by decide⟩

theorem frmVerify : Statement .frmVerify := fun _ => ⟨by simp [encode], by decide⟩

theorem seqPredict : Statement .seqPredict := fun _ => ⟨by simp [encode], by decide⟩

theorem seqXchg : Statement .seqXchg := fun _ => ⟨by simp [encode], by decide⟩

theorem seqClose : Statement .seqClose := fun _ => ⟨by simp [encode], by decide⟩

theorem hostRd (idx : Index) : Statement (.hostRd idx) := fun _ => by
  simp [Machine.isCommand, encode, encodeCommand]

theorem hostWr (idx : Index) (v : Word) : Statement (.hostWr idx v) := fun h => by
  refine ⟨by simp [encode], ?_⟩
  simp only [Instr.wf, Bool.not_eq_true'] at h
  simpa [Machine.isCommand, encode, encodeCommand] using h.symm

theorem crcValue : Statement .crcValue := fun _ => ⟨by simp [encode], by decide⟩

end TransactionKind

end Sys2Proof.Laws
end

