-- ==== Sys2Proof/Laws/Prediction.lean ====
section
/-! SUPPORT. The laws of the request check, the prediction and the delays, and how a legal state is put together. -/

namespace Sys2Proof.Machine

theorem hasQuantity_iff (f : Family) : hasQuantity f = true ↔ f = .bitRead ∨ f = .registerRead := by
  cases f <;> simp [hasQuantity]

/-- Everything `req_check` can answer when it answers (42_sequencer R174). -/
theorem reqCheck_eq_ok {s : State} {e : Option Err} (h : reqCheck s = .ok e) :
    (e = some .frameTooLong ∧ 256 < s.txlen.toNat) ∨ (e = some .frameTooShort ∧ s.txlen.toNat < 2) ∨
    (2 ≤ s.txlen.toNat ∧ s.txlen.toNat ≤ 256 ∧ ∃ fc, s.cell .txbuf 1 = some fc ∧
      e = if (s.familyOf fc = .bitRead ∨ s.familyOf fc = .registerRead) ∧ s.txlen.toNat < 6 then some .frameTooShort
          else none) := by
  unfold reqCheck at h
  dsimp only at h
  split at h
  · cases h; exact .inl ⟨rfl, ‹_›⟩
  · split at h
    · cases h; exact .inr (.inl ⟨rfl, ‹_›⟩)
    · rename_i h1 h2
      have h1 : ¬s.txlen.toNat > 256 := h1
      obtain ⟨fc, h3, h4⟩ := Access.bind_eq_ok h
      refine .inr (.inr ⟨by omega, by omega, fc, ?_, ?_⟩)
      · rcases readCell_cases s.mem .txbuf 1 with ⟨v, -, hv, he⟩ | ⟨-, -, he⟩ | ⟨-, he⟩
        · rw [he] at h3; cases h3; exact hv
        · rw [he] at h3; cases h3
        · rw [he] at h3; cases h3
      · simp only [hasQuantity_iff] at h4
        split at h4 <;> cases h4
        · rename_i h5; rw [if_pos h5]
        · rename_i h5; rw [if_neg h5]

/-- A predicted length is between 4 and 131075 (10_state R29). -/
theorem predictedLength_range (f : Family) (hi lo : Byte) :
    4 ≤ predictedLength f (be16 hi lo) ∧ predictedLength f (be16 hi lo) ≤ 131075 := by
  have := hi.isLt
  have := lo.isLt
  cases f <;> simp [predictedLength, be16] <;> omega

/-- What `predict` answers when it answers: a length in range, the function code having been read (42_sequencer R172). -/
theorem predict_eq_ok {s : State} {p : Nat} (h : predict s = .ok p) :
    (Memory.read s.mem (Buf.txbuf.addr 1)).isSome = true ∧ 4 ≤ p ∧ p ≤ 131075 := by
  obtain ⟨fc, h1, h2⟩ := Access.bind_eq_ok h
  refine ⟨?_, ?_⟩
  · rcases readCell_cases s.mem .txbuf 1 with ⟨v, -, hv, -⟩ | ⟨-, -, he⟩ | ⟨-, he⟩
    · simp [hv]
    · rw [he] at h1; cases h1
    · rw [he] at h1; cases h1
  · dsimp only at h2
    split at h2
    · obtain ⟨hi, -, h4⟩ := Access.bind_eq_ok h2
      obtain ⟨lo, -, h6⟩ := Access.bind_eq_ok h4
      cases h6; exact predictedLength_range _ _ _
    · cases h2
      exact predictedLength_range _ 0 0

theorem charDelay_range (b : Nat) : 750 ≤ charDelay b ∧ charDelay b ≤ 15000000 := by
  unfold charDelay
  split_ifs with h
  · simp only [baudScales] at h
    constructor
    · rw [Nat.le_div_iff_mul_le h.1]; simp at h ⊢; omega
    · exact Nat.div_le_self _ _
  · simp

theorem frameDelay_range (b : Nat) : 1750 ≤ frameDelay b ∧ frameDelay b ≤ 35000000 := by
  unfold frameDelay
  split_ifs with h
  · simp only [baudScales] at h
    constructor
    · rw [Nat.le_div_iff_mul_le h.1]; simp at h ⊢; omega
    · exact Nat.div_le_self _ _
  · simp

/-- An idle state is legal when its memory and its four progress registers are in range. -/
theorem State.Inv.of_idle {t : State} (h : t.st = .idle) (hm : Memory.wf t.mem = true) (hw : t.waitcnt = 0)
    (hr : t.rxtgt = 0 ∨ 4 ≤ t.rxtgt.toNat ∧ t.rxtgt.toNat ≤ 256) (ht : t.txcnt.toNat ≤ 256)
    (hp : t.pred = 0 ∨ 4 ≤ t.pred.toNat ∧ t.pred.toNat ≤ 131075) : t.Inv := by
  constructor <;> simp_all [Seq.sent, Seq.reads]

/-- The inputs still to come and the outputs are no part of what makes a state legal (log 1, log 3). -/
theorem State.Inv.with_io {s : State} (h : s.Inv) (l : List Input) (o : Outputs) :
    State.Inv { s with inputs := l, out := o } := { h with }

end Sys2Proof.Machine
end

