-- ==== Sys2Proof/Tests/Slice0.lean ====
section
/-! SUPPORT. The model's own tests (expected values from 95_test_vectors, whose line a comment names), and for every
statement with hypotheses a concrete input that meets them. -/

namespace Sys2Proof.Tests

open Sys2Proof.Machine

/-! ## Helpers -/

/-- The cells of a buffer from cell `i` on. -/
def cellsFrom (b : Buf) : Nat → List Byte → Memory
  | _, [] => []
  | i, v :: l => (b.addr i, v) :: cellsFrom b (i + 1) l

/-- The memory with these bytes in the three buffers, each from cell 0 on. -/
def buffers (tx rx pd : List Byte) : Memory := cellsFrom .txbuf 0 tx ++ cellsFrom .rxbuf 0 rx ++ cellsFrom .pdat 0 pd

/-- An idle state with a request in `TXBUF` and a response in `RXBUF`. -/
def withFrames (tx rx : List Byte) : State :=
  { State.reset with
    mem := buffers tx rx [], txlen := BitVec.ofNat 16 tx.length, rxlen := BitVec.ofNat 16 rx.length }

/-- An idle state with a PDU in the registers and in `PDAT`. -/
def withPdu (addr fc : Byte) (d : List Byte) : State :=
  { State.reset with uaddr := addr, ufc := fc, mem := buffers [] [] d, plen := BitVec.ofNat 16 d.length }

/-- The exchange of a request in one of the states after `SEND`, with the response bytes taken so far. -/
def inExchange (q : Seq) (tx rx : List Byte) (pred rxtgt : Nat) : State :=
  { withFrames tx rx with
    st := q, txcnt := BitVec.ofNat 16 tx.length, pred := BitVec.ofNat 32 pred, rxtgt := BitVec.ofNat 16 rxtgt,
    openBit := true }

/-- The step answers a next state with this property. -/
def nextWith (r : Result) (p : State → Bool) : Bool :=
  match r with
  | .next t => p t
  | .fault _ => false
  | .refused _ => false

/-- The step is refused for this reason. -/
def refusedWith (r : Result) (x : Refusal) : Bool :=
  match r with
  | .next _ => false
  | .fault _ => false
  | .refused y => decide (y = x)

theorem exists_next {r : Result} {p : State → Bool} (h : nextWith r p = true) : ∃ t, r = .next t ∧ p t = true := by
  cases r with
  | next t => exact ⟨t, rfl, h⟩
  | fault f => cases h
  | refused f => cases h

/-- The request of 95_test_vectors P3: read five holding registers. -/
def request : List Byte := [0x01, 0x03, 0x00, 0x00, 0x00, 0x05, 0x85, 0xC9]

theorem read_cellsFrom (b : Buf) (l : List Byte) (i k : Nat) (h : k < l.length) :
    Memory.read (cellsFrom b i l) (b.addr (i + k)) = some l[k] := by
  induction l generalizing i k with
  | nil => simp at h
  | cons v l ih =>
    cases k with
    | zero => simp [cellsFrom, Memory.read]
    | succ k =>
      have := ih (i + 1) k (by simpa using h)
      rw [show i + 1 + k = i + (k + 1) by omega] at this
      simpa [cellsFrom, Memory.read, Buf.addr] using this

theorem withPdu_holds (addr fc : Byte) (d : List Byte) : State.holds (withPdu addr fc d) .pdat d := fun k h => by
  simpa [State.cell, withPdu, buffers, cellsFrom] using read_cellsFrom .pdat d 0 k h

theorem withFrames_holds_rx (l : List Byte) : State.holds (withFrames [] l) .rxbuf l := fun k h => by
  simpa [State.cell, withFrames, buffers, cellsFrom] using read_cellsFrom .rxbuf l 0 k h

theorem inExchange_holds_tx (q : Seq) (l : List Byte) (pred rxtgt : Nat) :
    State.holds (inExchange q l [] pred rxtgt) .txbuf l := fun k h => by
  simpa [State.cell, inExchange, withFrames, buffers, cellsFrom] using read_cellsFrom .txbuf l 0 k h

/-! ## Well-formedness (log 11) -/

theorem test_wf_refuses_read_of_crc : (Instr.hostRd 0x003).wf = false := by decide

theorem test_wf_refuses_command_as_write :
    (Instr.hostWr 0x000 0x00001000).wf = false ∧ (Instr.hostWr 0x000 0x00001156).wf = false := by decide

theorem test_wf_accepts_illegal_command_word : (Instr.hostWr 0x000 0x00001001).wf = true := by decide

/-! ## Decoding: words written out from the fields of 30_encoding R91 and R101 -/

theorem test_decode_crcReset : decodeTableWord 32 0b0000000000000000_0001_0000_00000000 = some .crcReset := by decide

theorem test_decode_crcPush :
    decodeTableWord 32 0b0000000000000000_0001_0001_01010110 = some (.crcPush 0x56) := by decide

theorem test_decode_frmEncode : decodeTableWord 32 0b0000000000000000_0010_0000_00000000 = some .frmEncode := by decide

theorem test_decode_frmDecode : decodeTableWord 32 0b0000000000000000_0010_0001_00000000 = some .frmDecode := by decide

theorem test_decode_frmVerify : decodeTableWord 32 0b0000000000000000_0010_0010_00000000 = some .frmVerify := by decide

theorem test_decode_seqPredict :
    decodeTableWord 32 0b0000000000000000_0011_0000_00000000 = some .seqPredict := by decide

theorem test_decode_seqXchg : decodeTableWord 32 0b0000000000000000_0011_0001_00000000 = some .seqXchg := by decide

theorem test_decode_seqClose : decodeTableWord 32 0b0000000000000000_0011_0010_00000000 = some .seqClose := by decide

theorem test_decode_hostRd :
    decodeTableWord 48 0b000_0_000100000111_00000000000000000000000000000000 = some (.hostRd 0x107) := by decide

theorem test_decode_hostWr :
    decodeTableWord 48 0b000_1_000000001001_00000000000000000010010110000000 = some (.hostWr 0x009 9600) := by decide

theorem test_decode_crcValue :
    decodeTableWord 48 0b000_0_000000000011_00000000000000000000000000000000 = some .crcValue := by decide

/-- 95_test_vectors P3 line 14: a command as the host transaction that carries it. -/
theorem test_decode_command_transaction :
    decodeTableWord 48 0b000_1_000000000000_00000000000000000010001000000000 = some .frmVerify := by decide

/-- 95_test_vectors I1 to I5. -/
theorem test_decode_rejects_illegal_words :
    decodeTableWord 32 0x00000000 = none ∧ decodeTableWord 32 0x00001001 = none ∧
    decodeTableWord 32 0x00001200 = none ∧ decodeTableWord 32 0x00002300 = none ∧
    decodeTableWord 32 0x00003300 = none ∧ decodeTableWord 32 0x00004000 = none ∧
    decodeTableWord 32 0x0000F000 = none ∧ decodeTableWord 32 0x00012000 = none ∧
    decodeTableWord 32 0x00011100 = none := by decide

theorem test_decode_rejects_stray_bits :
    decodeTableWord 48 0x200000000000 = none ∧ decodeTableWord 64 0x1000 = none := by decide

theorem test_encode_hostWr : encode (.hostWr 0x004 0x11) = 0x100400000011 := by decide

theorem test_encode_crcPush : encode (.crcPush 0x05) = 0x100000001105 := by decide

/-! ## Instructions -/

/-- V20. -/
theorem test_crcReset : nextWith (exec .crcReset { State.reset with crc := 0x1234, err := .crcMismatch })
    (fun t => decide (t.crc = 0xFFFF ∧ t.err = .none)) = true := by decide

/-- V21, V22. -/
theorem test_crcPush : nextWith (exec (.crcPush 0x01) State.reset) (fun t => decide (t.crc = 0x807E)) = true ∧
    nextWith (exec (.crcPush 0x56) { State.reset with crc := 0x1234 }) (fun t => decide (t.crc = 0xE993)) = true := by
  decide

/-- V23. -/
theorem test_crcValue : nextWith (exec .crcValue { State.reset with crc := 0xC985, err := .ioError })
    (fun t => decide (t.out.rdData = some 0x0000C985 ∧ t.err = .ioError)) = true := by decide

/-- E1. -/
theorem test_frmEncode : nextWith (exec .frmEncode (withPdu 0x01 0x03 [0x00, 0x00, 0x00, 0x05]))
    (fun t => decide (t.holds .txbuf request ∧ t.txlen = 8 ∧ t.crc = 0xC985 ∧ t.err = .none)) = true := by
  decide +kernel

/-- E13. -/
theorem test_frmEncode_too_long : exec .frmEncode { State.reset with plen := 253 } =
    .next { State.reset with plen := 253, err := .frameTooLong } := rfl

/-- The worked example of 41_framer R142. -/
theorem test_frmDecode : nextWith (exec .frmDecode (withFrames [] [0x01, 0x83, 0x02, 0xC0, 0xF1]))
    (fun t => decide (t.uaddr = 0x01 ∧ t.ufc = 0x83 ∧ t.plen = 1 ∧ t.holds .pdat [0x02] ∧ t.crc = 0xF1C0 ∧
      t.err = .none)) = true := by decide +kernel

/-- The same with `RXBUF[4]` = 0xF0. -/
theorem test_frmDecode_mismatch : nextWith (exec .frmDecode (withFrames [] [0x01, 0x83, 0x02, 0xC0, 0xF0]))
    (fun t => decide (t.uaddr = 0 ∧ t.ufc = 0 ∧ t.plen = 0 ∧ t.crc = 0xF1C0 ∧ t.err = .crcMismatch)) = true := by
  decide +kernel

/-- The worked example of 41_framer R143. -/
theorem test_frmVerify : nextWith (exec .frmVerify (withFrames request [0x02, 0x03, 0x00, 0x00]))
    (fun t => decide (t.err = .addressMismatch)) = true := by decide

/-- The worked examples of 42_sequencer R173. -/
theorem test_seqPredict :
    nextWith (exec .seqPredict (withFrames request [])) (fun t => decide (t.pred = 15 ∧ t.err = .none)) = true ∧
    nextWith (exec .seqPredict (withFrames [0x01, 0x01, 0x00, 0x00, 0x00, 0x08, 0x3D, 0xCC] []))
      (fun t => decide (t.pred = 6)) = true := by decide

/-- P3 line 7. -/
theorem test_seqXchg : nextWith (exec .seqXchg (withFrames request [0x00, 0x00]))
    (fun t => decide (t.pred = 15 ∧ t.txcnt = 0 ∧ t.rxlen = 0 ∧ t.rxtgt = 4 ∧ statusView t = 0x00000101)) = true := by
  decide

/-- P4 line 4: with the channel open `CONNECT` is skipped, and `DONE` is cleared. -/
theorem test_seqXchg_open :
    nextWith (exec .seqXchg { withFrames request [] with openBit := true, doneBit := true })
      (fun t => decide (statusView t = 0x00000205)) = true := by decide

/-- P5 line 13. -/
theorem test_seqClose : nextWith (exec .seqClose { State.reset with openBit := true, err := .frameTooShort })
    (fun t => decide (statusView t = 0 ∧ closeReq t = true ∧ t.err = .none)) = true := by decide

/-- H2. -/
theorem test_hostRd : nextWith (exec (.hostRd 0x00A) State.reset) (fun t => decide (t.out.rdData = some 750)) = true ∧
    nextWith (exec (.hostRd 0x00B) State.reset) (fun t => decide (t.out.rdData = some 1750)) = true := by decide

/-- H6, H7. -/
theorem test_hostRd_refusals : refusedWith (exec (.hostRd 0x100) State.reset) .unwrittenCell = true ∧
    refusedWith (exec (.hostRd 0x010) State.reset) .unmappedIndex = true ∧
    refusedWith (exec (.hostRd 0xFFF) State.reset) .unmappedIndex = true := by decide

/-- H3, H4. -/
theorem test_hostWr :
    nextWith (exec (.hostWr 0x004 0x00000111) State.reset) (fun t => decide (t.uaddr = 0x11)) = true ∧
    nextWith (exec (.hostWr 0x006 0x00012345) State.reset) (fun t => decide (t.plen = 0x2345)) = true := by decide

/-- H9, H5: the last mapped cell, and the low byte of the value. -/
theorem test_hostWr_cell :
    nextWith (exec (.hostWr 0x3FB 0xAB) State.reset) (fun t => decide (t.mem = [(0x3FB, 0xAB)])) = true ∧
    nextWith (exec (.hostWr 0x103 0x1FF) State.reset) (fun t => decide (t.cell .txbuf 3 = some 0xFF)) = true := by
  decide

/-! ## Driver events -/

/-- P3 line 9: the last byte of the request, at 9600 baud. -/
theorem test_txAccept_last : nextWith (onEvent .txAccept { inExchange .send request [] 15 4 with txcnt := 7, baud := 9600 })
    (fun t => decide (t.out.txTaken = some 0xC9 ∧ t.txcnt = 8 ∧ t.waitcnt = 16141 ∧ statusView t = 0x00000305)) =
    true := by decide

/-- P3 line 11 and P4 line 7: the fourth byte on the success path and on the exception path. -/
theorem test_fourth_byte :
    nextWith (onEvent (.rxByte 0x27) (inExchange .readMin request [0x01, 0x03, 0x0A] 15 4))
      (fun t => decide (t.rxtgt = 15 ∧ t.rxlen = 4 ∧ statusView t = 0x00000505)) = true ∧
    nextWith (onEvent (.rxByte 0xC0) (inExchange .readMin request [0x01, 0x83, 0x02] 15 4))
      (fun t => decide (t.rxtgt = 5 ∧ statusView t = 0x00000505)) = true := by decide

/-- P4 line 8. -/
theorem test_last_byte : nextWith (onEvent (.rxByte 0xF1) (inExchange .readRem request [0x01, 0x83, 0x02, 0xC0] 15 5))
    (fun t => decide (t.rxlen = 5 ∧ statusView t = 0x00000006)) = true := by decide

/-- P5 line 9, with the registers of X20. -/
theorem test_rxFail : nextWith (onEvent .rxFail (inExchange .readMin request [0x01, 0x06] 8 4))
    (fun t => decide (t.rxlen = 0 ∧ t.err = .ioError ∧ t.rxtgt = 4 ∧ t.txcnt = 8 ∧ statusView t = 0x00000004)) =
    true := by decide

/-- 60_exceptions R240: in one cycle the failure event wins over the data event, and the host reads the state after. -/
theorem test_cycle :
    nextWith (step { State.reset with st := .connect, inputs := [.cycle
      { rst := false, openOk := true, openFail := true, txReady := false, txFail := false, rxValid := false, rxData := 0,
        rxFail := false, tickUs := false, host := some 0x000200000000 }] })
      (fun t => decide (t.st = .idle ∧ t.openBit = false ∧ t.out.rdData = some 5)) = true := by decide

/-- The model's choice of log 18: a host write in the cycle whose event ends the exchange runs. -/
theorem test_cycle_write_after_end :
    nextWith (step { State.reset with st := .connect, inputs := [.cycle
      { rst := false, openOk := false, openFail := true, txReady := false, txFail := false, rxValid := false, rxData := 0,
        rxFail := false, tickUs := false, host := some 0x100400000011 }] })
      (fun t => decide (t.st = .idle ∧ t.uaddr = 0x11)) = true := by decide

/-! ## A placed word is the next step -/

theorem test_withFetchWord_command :
    nextWith (step (State.reset.withFetchWord 32 0x00001101)) (fun t => decide (t.crc = 0x807E)) = true := by
  decide

theorem test_withFetchWord_transaction :
    nextWith (step (State.reset.withFetchWord 48 0x000300000000))
      (fun t => decide (t.out.rdData = some 0x0000FFFF ∧ t.inputs = [])) = true := by decide

/-! ## Witnesses: for every statement with hypotheses, inputs that meet them, clause by clause -/

theorem witness_DecodeOfEncodeIsTheInstruction :
    (Instr.hostWr 0xFFF 0xFFFFFFFF).wf = true ∧ (Instr.hostRd 0x000).wf = true ∧ (Instr.crcPush 0xFF).wf = true := by
  decide

theorem witness_EncodeOfDecodeKeepsTheTransaction :
    Transaction.we 0x1FFFFFFFFFFF = true ∧ Transaction.we 0x0FFFFFFFFFFF = false := by decide

theorem witness_CommandWordsAreTheLegalFields :
    ∃ r ∈ commandRows, r.accepts 0x00001100 = true ∧ r.accepts 0x000011FF = true :=
  ⟨⟨.crcPush, 0x00001100, 0xFFFFFF00⟩, by decide, by decide⟩

theorem witness_CrcResetLoadsTheStartValue : State.reset.st = .idle := rfl

theorem witness_CrcPushStepsTheAccumulator : State.reset.st = .idle := rfl

theorem witness_OnlyFourCommandsWriteCrc :
    (∃ t, exec (.hostWr 0x003 0) State.reset = .next t ∧ decide (t.crc = 0xFFFF) = true) ∧
    (∃ t, exec .crcReset { State.reset with crc := 1 } = .next t ∧ decide (t.crc ≠ 1) = true) ∧
    (∃ t, onEvent .openOk { State.reset with st := .connect } = .next t ∧ decide (t.st = .send) = true) :=
  ⟨exists_next (by decide), exists_next (by decide), exists_next (by decide)⟩

/-- Both ends of the range that encodes, and both of the range that does not. -/
theorem witness_FrmEncodeBuildsTheFrame :
    (∃ s d, s.st = .idle ∧ d.length = s.plen.toNat ∧ d.length = 0 ∧ State.holds s .pdat d) ∧
    (∃ s d, s.st = .idle ∧ d.length = s.plen.toNat ∧ d.length = 252 ∧ State.holds s .pdat d) ∧
    (∃ s : State, s.st = .idle ∧ s.plen.toNat = 253) ∧ (∃ s : State, s.st = .idle ∧ s.plen.toNat = 65535) :=
  ⟨⟨withPdu 0x01 0x03 [], [], rfl, rfl, rfl, withPdu_holds _ _ _⟩,
    ⟨withPdu 0x01 0x03 (List.replicate 252 0xA5), List.replicate 252 0xA5, rfl, by decide +kernel,
      List.length_replicate, withPdu_holds _ _ _⟩,
    ⟨{ State.reset with plen := 253 }, rfl, rfl⟩, ⟨{ State.reset with plen := 65535 }, rfl, rfl⟩⟩

/-- A frame of these data bytes with a good checksum. -/
def goodFrame (d : List Byte) : List Byte := 0x11 :: 0x03 :: (d ++ [lo8 (crc16 (0x11 :: 0x03 :: d)), hi8 (crc16 (0x11 :: 0x03 :: d))])

theorem goodFrame_length (d : List Byte) : (goodFrame d).length = d.length + 4 := by simp [goodFrame]

/-- The shortest and the longest frame with a good checksum, a frame with a bad one (95_test_vectors E5 has the good
one), and the lengths at which `FRM.DECODE` raises. -/
theorem witness_FrmDecodeChecksAndUnwraps :
    (∃ s d, s.st = .idle ∧ d.length + 4 = s.rxlen.toNat ∧ d.length + 4 = 4 ∧ State.holds s .rxbuf (goodFrame d)) ∧
    (∃ s d, s.st = .idle ∧ d.length + 4 = s.rxlen.toNat ∧ d.length + 4 = 256 ∧ State.holds s .rxbuf (goodFrame d)) ∧
    (∃ s : State, s.st = .idle ∧ 0 + 4 = s.rxlen.toNat ∧ s.holds .rxbuf [0x00, 0x00, 0x01, 0xB1] ∧
      ¬((0x01 : Byte) = lo8 (crc16 [0x00, 0x00]) ∧ (0xB1 : Byte) = hi8 (crc16 [0x00, 0x00]))) ∧
    (∃ s : State, s.st = .idle ∧ s.rxlen.toNat = 3) ∧ (∃ s : State, s.st = .idle ∧ s.rxlen.toNat = 257) :=
  ⟨⟨withFrames [] (goodFrame []), [], rfl, rfl, rfl, withFrames_holds_rx _⟩,
    ⟨withFrames [] (goodFrame (List.replicate 252 0xA5)), List.replicate 252 0xA5, rfl, by
      simp only [withFrames, goodFrame_length, List.length_replicate]; rfl, by rw [List.length_replicate],
      withFrames_holds_rx _⟩,
    ⟨withFrames [] [0x00, 0x00, 0x01, 0xB1], rfl, by decide, withFrames_holds_rx _, by decide +kernel⟩,
    ⟨{ State.reset with rxlen := 3 }, rfl, rfl⟩, ⟨{ State.reset with rxlen := 257 }, rfl, rfl⟩⟩

theorem witness_FrmVerifyComparesAddresses :
    (∃ s : State, s.st = .idle ∧ s.rxlen.toNat = 3) ∧
    (∃ s : State, s.st = .idle ∧ s.rxlen.toNat = 4 ∧ s.txlen.toNat = 0) ∧
    (∃ s : State, s.st = .idle ∧ s.rxlen.toNat = 4 ∧ s.txlen.toNat = 1 ∧ s.cell .rxbuf 0 = some 0x02 ∧
      s.cell .txbuf 0 = some 0x01) ∧
    (∃ s : State, s.st = .idle ∧ s.rxlen.toNat = 4 ∧ s.txlen.toNat = 1 ∧ s.cell .rxbuf 0 = some 0x01 ∧
      s.cell .txbuf 0 = some 0x01) :=
  ⟨⟨withFrames [] [0, 0, 0], by decide⟩, ⟨withFrames [] [0, 0, 0, 0], by decide⟩,
    ⟨withFrames [0x01] [0x02, 0, 0, 0], by decide⟩, ⟨withFrames [0x01] [0x01, 0, 0, 0], by decide⟩⟩

theorem witness_EncodeAndDecodeAreInverse :
    (∃ t, exec .frmDecode (withFrames [] request) = .next t ∧ decide (t.err = .none) = true) ∧
    (∃ t, exec .frmEncode (withPdu 0x01 0x03 [0x00, 0x00, 0x00, 0x05]) = .next t ∧
      decide (t.err = .none ∧ (withFrames [] request).st = .idle ∧ (withFrames [] request).rxlen = t.txlen ∧
        ∀ k, k < t.txlen.toNat → (withFrames [] request).cell .rxbuf k = t.cell .txbuf k) = true) :=
  ⟨exists_next (by decide +kernel), exists_next (by decide +kernel)⟩

/-- One request per family, each the shortest that passes, and one of the greatest length. -/
theorem witness_requests :
    State.requests (withFrames [0x01, 0x01, 0x00, 0x00, 0x00, 0x08] []) 0x01 6 ∧
    State.requests (withFrames [0x01, 0x17, 0x00, 0x00, 0xFF, 0xFF] []) 0x17 131075 ∧
    State.requests (withFrames [0x01, 0x05] []) 0x05 8 ∧ State.requests (withFrames [0x01, 0x16] []) 0x16 10 ∧
    State.requests (withFrames [0x01, 0x90] []) 0x90 4 ∧
    State.requests (withFrames (0x01 :: 0x10 :: List.replicate 254 0x00) []) 0x10 8 := by
  refine ⟨⟨by decide, by decide, by decide, .inl ⟨by decide, by decide, 0x00, 0x08,
      by decide, by decide, by decide⟩⟩,
    ⟨by decide, by decide, by decide, .inr (.inl ⟨by decide, by decide, 0xFF, 0xFF,
      by decide, by decide, by decide⟩)⟩, ?_, ?_, ?_, ?_⟩
  · exact ⟨by decide, by decide, by decide, .inr (.inr (.inl (by decide)))⟩
  · exact ⟨by decide, by decide, by decide, .inr (.inr (.inr (.inl (by decide))))⟩
  · exact ⟨by decide, by decide, by decide, .inr (.inr (.inr (.inr (by decide))))⟩
  · exact ⟨by decide +kernel, by decide +kernel, by decide, .inr (.inr (.inl (by decide)))⟩

/-- A table that gives the code 0x41, unknown by default, to the mask write, and lists nothing else. -/
def otherTable : List FcRow := [⟨.maskWriteRegister, 0x41, .maskWrite⟩]

/-- Under another `FC_TABLE` the prediction is another one (30_encoding R98: a code the table does not list is unknown). -/
theorem test_seqPredict_other_table :
    nextWith (exec .seqPredict { withFrames [0x01, 0x41] [] with fcTable := otherTable })
      (fun t => decide (t.pred = 10 ∧ t.fcTable = otherTable)) = true ∧
    nextWith (exec .seqPredict { withFrames [0x01, 0x16] [] with fcTable := otherTable })
      (fun t => decide (t.pred = 4)) = true := by decide

theorem witness_FunctionCodeFamilies : State.reset.fcTable = Config.defaultFcTable := rfl

/-- The default table lists no code twice; a code it lists first, one it lists last, and one it does not list. -/
theorem witness_FamilyIsTheTablesLookup :
    State.reset.fcTable.Pairwise (fun a b => a.code ≠ b.code) ∧
    (⟨.readCoils, 0x01, .bitRead⟩ : FcRow) ∈ State.reset.fcTable ∧
    (⟨.readWriteMultipleRegisters, 0x17, .registerRead⟩ : FcRow) ∈ State.reset.fcTable ∧
    (∀ r, r ∈ State.reset.fcTable → r.code ≠ 0x18) := by
  simp [State.reset, Config.defaultFcTable]

theorem witness_SeqPredictWritesThePrediction :
    (∃ s fc p, s.st = .idle ∧ State.requests s fc p) ∧
    (∃ (s : State) (e : Err), s.st = .idle ∧ s.txlen.toNat = 257 ∧ s.rejects e) :=
  ⟨⟨_, _, _, rfl, witness_requests.1⟩, ⟨{ State.reset with txlen := 257 }, _, rfl, rfl, .inl ⟨by decide, rfl⟩⟩⟩

theorem witness_SeqXchgAccepts :
    (∃ s fc p, s.st = .idle ∧ State.requests s fc p) ∧
    (∃ (s : State) (e : Err), s.st = .idle ∧ s.txlen.toNat = 5 ∧ s.rejects e) :=
  ⟨⟨_, _, _, rfl, witness_requests.2.1⟩, ⟨withFrames [0x01, 0x03, 0, 0, 0] [], _, rfl, rfl,
    .inr (.inr ⟨by decide, by decide, rfl, 0x03, by decide, by decide⟩)⟩⟩

theorem witness_RequestCheckRejects :
    (∃ s : State, s.st = .idle ∧ s.txlen.toNat = 257) ∧ (∃ s : State, s.st = .idle ∧ s.txlen.toNat = 1) ∧
    (∃ s : State, s.st = .idle ∧ s.txlen.toNat = 2 ∧ s.cell .txbuf 1 = some 0x03 ∧ s.familyOf 0x03 = .registerRead) ∧
    (∃ s : State, s.st = .idle ∧ s.txlen.toNat = 5 ∧ s.cell .txbuf 1 = some 0x02 ∧ s.familyOf 0x02 = .bitRead) :=
  ⟨⟨{ State.reset with txlen := 257 }, by decide⟩, ⟨{ State.reset with txlen := 1 }, by decide⟩,
    ⟨withFrames [0x01, 0x03] [], by decide⟩, ⟨withFrames [0x01, 0x02, 0, 0, 0] [], by decide⟩⟩

theorem witness_SeqCloseClosesTheChannel : State.reset.st = .idle := rfl

theorem witness_DelaysFollowTheBaudRate : 0 < 1 ∧ 19200 ≤ 19200 ∧ (0 = 0 ∨ 19200 < 0) ∧ (19201 = 0 ∨ 19200 < 19201) := by
  decide

theorem witness_WaitIsBounded : 0 ≤ 256 ∧ 256 ≤ 256 ∧ 2 ≤ 2 := by decide

theorem witness_ConnectIsAnswered : (inExchange .connect request [] 15 4).st = .connect ∧ State.reset.st ≠ .connect := by
  decide

theorem inExchange_holds_last : (inExchange .send (List.replicate 256 0x05) [] 8 4).cell .txbuf 255 = some 0x05 := by
  have h := inExchange_holds_tx .send (List.replicate 256 0x05) 8 4 255 (by rw [List.length_replicate]; decide)
  rwa [List.getElem_replicate] at h

/-- A byte that is not the last, and the last byte of the longest request. -/
theorem witness_SendHandsOverTheNextByte :
    (∃ s : State, s.st = .send ∧ s.txcnt.toNat = 0 ∧ s.cell .txbuf s.txcnt.toNat = some 0x01 ∧ s.txcnt + 1 ≠ s.txlen) ∧
    (∃ s : State, s.st = .send ∧ s.txcnt.toNat = 255 ∧ s.cell .txbuf s.txcnt.toNat = some 0x05 ∧
      s.txcnt + 1 = s.txlen) ∧
    (∃ s : State, s.st = .send ∧ s.txcnt.toNat = 255 ∧ ¬s.written .txbuf s.txcnt.toNat) :=
  ⟨⟨{ inExchange .send request [] 15 4 with txcnt := 0 }, by decide⟩,
    ⟨{ inExchange .send (List.replicate 256 0x05) [] 8 4 with txcnt := 255 }, rfl, rfl, inExchange_holds_last,
      by decide +kernel⟩,
    ⟨{ State.reset with st := .send, txcnt := 255 }, by decide⟩⟩

theorem witness_TickCountsTheWaitDown :
    (∃ s : State, s.st = .wait ∧ s.waitcnt = 2 ∧ 1 < s.waitcnt.toNat) ∧
    (∃ s : State, s.st = .wait ∧ s.waitcnt = 3875000000 ∧ 1 < s.waitcnt.toNat) ∧
    (∃ s : State, s.st = .wait ∧ s.waitcnt = 1) ∧ State.reset.st ≠ .wait :=
  ⟨⟨{ State.reset with st := .wait, waitcnt := 2 }, by decide⟩,
    ⟨{ State.reset with st := .wait, waitcnt := 3875000000 }, by decide⟩,
    ⟨{ State.reset with st := .wait, waitcnt := 1 }, by decide⟩, by decide⟩

theorem witness_TargetFollowsTheSecondByte :
    (4 < 5 ∧ 5 ≤ 256) ∧ (4 < 256 ∧ 256 ≤ 256) ∧ (4 ≤ 4 ∨ 256 < 4) ∧ (257 ≤ 4 ∨ 256 < 257) ∧
    ((0x83 : Byte) ≠ 0x03 ∧ (0x83 : Byte) = 0x03 ||| 0x80) ∧ ((0x04 : Byte) ≠ 0x03 ∧ (0x04 : Byte) ≠ 0x03 ||| 0x80) := by
  decide

/-- The first and the third byte; a fourth byte that ends the frame, and one that does not. -/
theorem witness_ReadMinTakesFourBytes :
    (∃ s : State, s.st = .readMin ∧ s.rxlen.toNat = 0) ∧ (∃ s : State, s.st = .readMin ∧ s.rxlen.toNat = 2) ∧
    (∃ s : State, s.st = .readMin ∧ s.rxlen = 3 ∧ s.cell .txbuf 1 = some 0x03 ∧ s.cell .rxbuf 1 = some 0x04 ∧
      targetOf 0x03 0x04 s.pred.toNat = 4) ∧
    (∃ s : State, s.st = .readMin ∧ s.rxlen = 3 ∧ s.cell .txbuf 1 = some 0x03 ∧ s.cell .rxbuf 1 = some 0x03 ∧
      targetOf 0x03 0x03 s.pred.toNat ≠ 4) :=
  ⟨⟨inExchange .readMin request [] 15 4, by decide⟩, ⟨inExchange .readMin request [1, 3] 15 4, by decide⟩,
    ⟨inExchange .readMin request [1, 4, 0] 15 4, by decide⟩,
    ⟨inExchange .readMin request [1, 3, 0] 15 4, by decide⟩⟩

/-- A byte that is not the last, and the last byte of the longest frame. -/
theorem witness_ReadRemTakesTheRest :
    (∃ s : State, s.st = .readRem ∧ s.rxlen.toNat = 4 ∧ s.rxlen + 1 ≠ s.rxtgt) ∧
    (∃ s : State, s.st = .readRem ∧ s.rxlen.toNat = 255 ∧ s.rxlen + 1 = s.rxtgt) :=
  ⟨⟨inExchange .readRem request [1, 3, 10, 39] 15 15, by decide⟩,
    ⟨{ inExchange .readRem request [] 256 256 with rxlen := 255 }, by decide⟩⟩

theorem witness_PortsAndEventsPerState :
    (inExchange .send request [] 15 4).st = .send ∧ Event.enabledIn .tick .idle = false ∧
    Event.enabledIn (.rxByte 0xFF) .wait = false := by decide

theorem witness_SequencerTransitionTable :
    (∃ t, onEvent .tick { State.reset with st := .wait, waitcnt := 1 } = .next t ∧ decide (t.st = .readMin) = true) ∧
    (∃ t, exec .seqXchg (withFrames request []) = .next t ∧ decide (t.st = .connect) = true) :=
  ⟨exists_next (by decide), exists_next (by decide)⟩

theorem witness_FlagsChangeOnlyAsListed :
    (∃ t, exec .seqXchg { withFrames request [] with doneBit := true } = .next t ∧
      decide (t.doneBit = false) = true) ∧
    (∃ t, onEvent (.rxByte 0xF1) (inExchange .readRem request [0x01, 0x83, 0x02, 0xC0] 15 5) = .next t ∧
      decide (t.doneBit = true) = true) :=
  ⟨exists_next (by decide), exists_next (by decide)⟩

theorem withPdu_holds_last : (withPdu 0 0 (List.replicate 252 0xA5)).cell .pdat 251 = some 0xA5 := by
  have h := withPdu_holds 0 0 (List.replicate 252 0xA5) 251 (by rw [List.length_replicate]; decide)
  rwa [List.getElem_replicate] at h

/-- The first and the last cell of each buffer; the ends of the two unmapped ranges. -/
theorem witness_HostReadReturnsTheView :
    (0 < Buf.txbuf.size ∧ (withFrames [0x01] []).cell .txbuf 0 = some 0x01) ∧
    (255 < Buf.rxbuf.size ∧ State.reset.cell .rxbuf 255 = none) ∧
    (251 < Buf.pdat.size ∧ (withPdu 0 0 (List.replicate 252 0xA5)).cell .pdat 251 = some 0xA5) ∧
    (0x010 ≤ (0x010#12).toNat ∧ (0x0FF#12).toNat < 0x100) ∧ 0x3FC ≤ (0x3FC#12).toNat ∧ 0x3FC ≤ (0xFFF#12).toNat :=
  ⟨by decide, by decide, ⟨by decide, withPdu_holds_last⟩, by decide,
    by decide, by decide⟩

theorem witness_UnmappedIndicesAreRefused :
    (0x010 ≤ (0x010#12).toNat ∧ (0x010#12).toNat < 0x100) ∧ (0x010 ≤ (0x0FF#12).toNat ∧ (0x0FF#12).toNat < 0x100) ∧
    0x3FC ≤ (0x3FC#12).toNat ∧ State.reset.st = .idle ∧ (inExchange .wait request [] 15 4).st ≠ .idle := by decide

theorem witness_HostWriteFollowsItsTarget :
    (inExchange .connect request [] 15 4).st ≠ .idle ∧ State.reset.st = .idle ∧
    decodeCommand 0x000011FF = some (.crcPush 0xFF) ∧ decodeCommand 0xFFFFFFFF = none ∧ 251 < Buf.pdat.size ∧
    255 < Buf.txbuf.size ∧ 0x3FC ≤ (0x3FC#12).toNat := by decide

theorem witness_WriteToCmdRunsTheCommand : decodeCommand 0x00003200 = some .seqClose := by decide

theorem witness_IllegalCommandWordsSetErrSix :
    State.reset.st = .idle ∧ decodeCommand 0x00011100 = none := by decide

/-- A busy state, and an idle one for the reads. -/
theorem witness_BusyRefusesWritesOnly :
    (inExchange .readRem request [1, 3, 10, 39] 15 15).st ≠ .idle ∧ isCommand .seqClose = true ∧
    regsInOrder[(0x00F#12).toNat]? = some .rxtgt ∧ regsInOrder[(0x000#12).toNat]? = some .cmd ∧
    (inExchange .readRem request [1, 3, 10, 39] 15 15).cell .rxbuf 3 = some 39 ∧ 3 < Buf.rxbuf.size ∧
    (withFrames [] [1, 3]).st = .idle ∧ (withFrames [] [1, 3]).cell .rxbuf 1 = some 3 := by decide

theorem witness_UnwrittenCellsAreRefused :
    (∃ s : State, s.st = .idle ∧ s.plen.toNat = 252 ∧ ¬s.written .pdat 251) ∧
    (∃ s : State, s.st = .idle ∧ s.rxlen.toNat = 4 ∧ s.txlen.toNat = 1 ∧ ¬s.written .rxbuf 0) ∧
    (∃ s : State, s.st = .idle ∧ s.rxlen.toNat = 256 ∧ ¬s.written .rxbuf 255) ∧
    (∃ s : State, s.st = .idle ∧ s.txlen.toNat = 2 ∧ ¬s.written .txbuf 1) ∧
    (∃ s : State, s.st = .idle ∧ s.txlen.toNat = 6 ∧ s.cell .txbuf 1 = some 0x03 ∧ s.familyOf 0x03 = .registerRead ∧
      ¬s.written .txbuf 5) ∧
    (∃ s : State, 251 < Buf.pdat.size ∧ ¬s.written .pdat 251) ∧
    (∃ s : State, s.st = .send ∧ s.txcnt.toNat = 255 ∧ ¬s.written .txbuf s.txcnt.toNat) ∧
    (∃ s : State, s.st = .readMin ∧ s.rxlen = 3 ∧ ¬s.written .txbuf 1 ∧ ¬s.written .rxbuf 1) :=
  ⟨⟨{ State.reset with plen := 252 }, by decide⟩, ⟨{ State.reset with rxlen := 4, txlen := 1 }, by decide⟩,
    ⟨{ State.reset with rxlen := 256 }, by decide⟩, ⟨{ State.reset with txlen := 2 }, by decide⟩,
    ⟨{ withFrames [1, 3, 0, 0, 0] [] with txlen := 6 }, by decide⟩, ⟨State.reset, by decide⟩,
    ⟨{ State.reset with st := .send, txcnt := 255 }, by decide⟩, ⟨{ State.reset with st := .readMin, rxlen := 3 }, by decide⟩⟩

theorem witness_EveryErrorHasItsCause :
    (∃ t, exec .frmVerify (withFrames [0x01] [0x02, 0, 0, 0]) = .next t ∧ decide (t.err = .addressMismatch) = true) ∧
    (∃ t, exec .frmDecode (withFrames [] [0x01, 0x83, 0x02, 0xC0, 0xF0]) = .next t ∧
      decide (t.err = .crcMismatch) = true) ∧
    (∃ t, exec (.hostWr 0x000 0x00012000) State.reset = .next t ∧ decide (t.err = .illegalCommand) = true) ∧
    (∃ t, exec (.hostWr 0x000 0x00001000) State.reset = .next t ∧ decide (t.err = .none) = true) ∧
    (∃ t, onEvent .openFail { State.reset with st := .connect } = .next t ∧ decide (t.err = .ioError) = true) ∧
    (∃ t, onEvent .openFail { State.reset with st := .send } = .next t ∧ decide (t.err = .none) = true) :=
  ⟨exists_next (by decide), exists_next (by decide +kernel), exists_next (by decide), exists_next (by decide),
    exists_next (by decide), exists_next (by decide)⟩

theorem witness_ErrorsLeaveNoResult :
    ∃ t, exec .frmDecode (withFrames [] [0x01, 0x83, 0x02, 0xC0, 0xF0]) = .next t ∧ decide (t.err ≠ .none) = true :=
  exists_next (by decide +kernel)

theorem witness_ErrIsOverwrittenByEveryCommand :
    isCommand (.crcPush 0x00) = true ∧ (∃ t, exec (.hostRd 0x002) State.reset = .next t ∧ decide (t.err = .none) = true) ∧
    (∃ t, exec (.hostWr 0x002 9) State.reset = .next t ∧ decide (t.err = .none) = true) :=
  ⟨by decide, exists_next (by decide), exists_next (by decide)⟩

theorem witness_StepRunsTheDecodedInstruction :
    (Instr.crcPush 0x56).wf = true ∧
    ({ State.reset with inputs := [.host (encode (.crcPush 0x56)), .reset] } : State).inputs =
      .host (encode (.crcPush 0x56)) :: [.reset] := ⟨by decide, rfl⟩

theorem witness_StepTakesTheNextInput :
    ({ State.reset with inputs := [.host 0] } : State).inputs = .host 0 :: [] ∧
    ({ State.reset with inputs := [.event .tick] } : State).inputs = .event .tick :: [] ∧
    ({ State.reset with inputs := [.reset] } : State).inputs = .reset :: [] ∧ State.reset.inputs = [] :=
  ⟨rfl, rfl, rfl, rfl⟩

/-- Every input pin low, but `rst`. -/
def quietPins (rst : Bool) : Pins where
  rst := rst
  openOk := false
  openFail := false
  txReady := false
  txFail := false
  rxValid := false
  rxData := 0
  rxFail := false
  tickUs := false
  host := none

theorem witness_CycleTakesInputsInOrder :
    (({ State.reset with inputs := [.cycle (quietPins true)] } : State).inputs = .cycle (quietPins true) :: [] ∧
      (quietPins true).rst = true) ∧
    (({ State.reset with inputs := [.cycle (quietPins false)] } : State).inputs = .cycle (quietPins false) :: [] ∧
      (quietPins false).rst = false) := ⟨⟨rfl, rfl⟩, rfl, rfl⟩

/-- A legal state in the middle of an exchange, about to take the fourth response byte. -/
def legal : State :=
  { inExchange .readMin request [0x01, 0x03, 0x0A] 15 4 with inputs := [.event (.rxByte 0x27)] }

theorem legal_inv : legal.Inv := by constructor <;> decide

theorem witness_StepKeepsLegalStates : legal.Inv ∧ ∃ t, step legal = .next t ∧ decide (t.st = .readRem) = true :=
  ⟨legal_inv, exists_next (by decide)⟩

theorem witness_EveryStepKeepsTheTable :
    ∃ t, step { State.reset with fcTable := otherTable, err := .ioError, inputs := [.reset] } = .next t ∧
      decide (t.fcTable = otherTable ∧ t.err = .none) = true := exists_next (by decide)

theorem witness_LegalStatesNeverFault : legal.Inv := legal_inv

theorem witness_EnabledEventsComplete : legal.Inv ∧ Event.enabledIn (.rxByte 0x27) legal.st = true ∧
    (({ legal with st := .send, rxlen := 0, txcnt := 7, inputs := [] } : State).written .txbuf 7) :=
  ⟨legal_inv, by decide, by decide⟩

/-- A request of one byte and one of 256. -/
theorem witness_RequestLeavesInOrder :
    (∃ (s : State) (f : List Byte), s.st = .send ∧ s.txcnt = 0 ∧ f.length = s.txlen.toNat ∧ f.length = 1 ∧
      s.holds .txbuf f ∧ s.inputs = List.replicate f.length (.event .txAccept) ++ []) ∧
    (∃ (s : State) (f : List Byte), s.st = .send ∧ s.txcnt = 0 ∧ f.length = s.txlen.toNat ∧ f.length = 256 ∧
      s.holds .txbuf f ∧ s.inputs = List.replicate f.length (.event .txAccept) ++ []) :=
  ⟨⟨{ inExchange .send [0x01] [] 4 4 with txcnt := 0, inputs := List.replicate 1 (.event .txAccept) ++ [] }, [0x01],
      rfl, rfl, rfl, rfl, inExchange_holds_tx .send [0x01] 4 4, rfl⟩,
    ⟨{ inExchange .send (List.replicate 256 0x05) [] 8 4 with
        txcnt := 0, inputs := List.replicate (List.replicate 256 (0x05 : Byte)).length (.event .txAccept) ++ [] },
      List.replicate 256 0x05, rfl, rfl, by decide +kernel, List.length_replicate,
      inExchange_holds_tx .send (List.replicate 256 0x05) 8 4, rfl⟩⟩

theorem witness_WaitLastsItsTicks :
    ∃ s : State, s.st = .wait ∧ s.waitcnt = 3 ∧ 1 ≤ s.waitcnt.toNat ∧
      s.inputs = List.replicate s.waitcnt.toNat (.event .tick) ++ [.event .rxFail] :=
  ⟨{ State.reset with
      st := .wait, waitcnt := 3, inputs := [.event .tick, .event .tick, .event .tick, .event .rxFail] },
    by decide⟩

/-- The shortest frame, the exception frame, and the one of 95_test_vectors P3. -/
theorem witness_ResponseBytesBecomeTheFrame :
    (∃ s : State, s.st = .readMin ∧ s.rxlen = 0 ∧ s.cell .txbuf 1 = some 0x03 ∧
      ([0x01, 0x04, 0x00, 0x00] : List Byte).length = targetOf 0x03 0x04 s.pred.toNat ∧
      ([0x01, 0x83, 0x02, 0xC0, 0xF1] : List Byte).length = targetOf 0x03 0x83 s.pred.toNat ∧
      ([0x01, 0x03, 0x0A, 0x27, 0x11, 0, 2, 0, 3, 0, 4, 0, 5, 0xB2, 0x54] : List Byte).length =
        targetOf 0x03 0x03 s.pred.toNat ∧
      s.inputs = [0x01, 0x04, 0x00, 0x00].map (fun b : Byte => Input.event (.rxByte b)) ++ []) :=
  ⟨{ inExchange .readMin request [] 15 4 with
      inputs := [0x01, 0x04, 0x00, 0x00].map (fun b : Byte => Input.event (.rxByte b)) ++ [] }, by decide⟩

end Sys2Proof.Tests
end

section
/-! Proofs about 00_scope: a transaction decodes to the instruction it encodes (R101), a step takes the next input
(R7, R8), and an error leaves no result (R12). -/

namespace Sys2Proof

/-- The match and mask rows name a command exactly for the words whose fields are legal (30_encoding R91, R93). -/
theorem isSome_decodeCommand (v : Word) : (decodeCommand v).isSome = isCommandWord v := by
  rw [Bool.eq_iff_iff, isCommandWord_iff, decodeCommand_eq]
  split_ifs <;> simp_all

theorem encode_of_encodeCommand {i : Instr} {w : Word} (h : encodeCommand i = some w) :
    encode i = Transaction.make true 0x000 w := by
  cases i <;> cases h <;> rfl

theorem decodeTransaction_write (idx : Index) (v : Word) :
    decodeTransaction (Transaction.make true idx v) =
      if idx = 0x000 then (decodeCommand v).getD (.hostWr 0x000 v) else .hostWr idx v := by
  simp [decodeTransaction]

theorem decodeTransaction_read (idx : Index) (v : Word) :
    decodeTransaction (Transaction.make false idx v) = if idx = 0x003 then .crcValue else .hostRd idx := by
  simp [decodeTransaction]

/-- The transaction of a well-formed instruction decodes to it (30_encoding R101). A command comes back through its
word; of the three others, `Instr.wf` shuts out the read of 0x003 and the write of a command word to 0x000. -/
theorem decodeTransaction_encode {i : Instr} (h : i.wf = true) : decodeTransaction (encode i) = i := by
  cases hc : encodeCommand i with
  | some w =>
    rw [encode_of_encodeCommand hc, decodeTransaction_write, if_pos rfl, decodeCommand_of_encodeCommand hc]
    rfl
  | none =>
    cases i with
    | hostRd idx => exact (decodeTransaction_read idx 0).trans (if_neg (of_decide_eq_true h))
    | crcValue => exact decodeTransaction_read 0x003 0
    | hostWr idx v =>
      refine (decodeTransaction_write idx v).trans ?_
      split
      next hidx =>
        subst hidx
        have hv : isCommandWord v = false := by simpa [Instr.wf] using h
        have hn : decodeCommand v = none := by simpa [hv] using isSome_decodeCommand v
        rw [hn]; rfl
      next => rfl
    | _ => cases hc

namespace Machine

theorem step_of_inputs_cons {s : State} {i : Input} {rest : List Input} (h : s.inputs = i :: rest) :
    step s = takeInput i (s.beginStep rest) := by
  simp only [step, takeNext, h]

theorem step_of_inputs_nil {s : State} (h : s.inputs = []) : step s = .next (s.beginStep []) := by
  simp only [step, takeNext, h]

/-- Settles O46: one clause for each kind of next input. -/
theorem stepTakesTheNextInput : Obligations.StepTakesTheNextInput := by
  intro s rest
  refine ⟨fun t h => step_of_inputs_cons h, fun e h => step_of_inputs_cons h, fun h => step_of_inputs_cons h,
    fun h => ?_⟩
  rw [step_of_inputs_nil h, State.beginStep, ← h]

/-- Settles O45: the step of a host transaction (`stepTakesTheNextInput`), where the transaction decodes to the
instruction it encodes. -/
theorem stepRunsTheDecodedInstruction : Obligations.StepRunsTheDecodedInstruction := by
  intro s rest i hwf h
  obtain ⟨hhost, -⟩ := stepTakesTheNextInput s rest
  rw [hhost (encode i) h, decodeTransaction_encode hwf]

/-- Settles O43, by the inversion lemma of each command: where it leaves an error, the state is the old one but for
`ERR`, and only the checksum test of `FRM.DECODE` leaves `CRC` changed. -/
theorem errorsLeaveNoResult : Obligations.ErrorsLeaveNoResult := by
  intro i s t hc h he
  cases i with
  | crcReset =>
    obtain ⟨-, rfl⟩ := crcReset_next h
    exact absurd rfl he
  | crcPush =>
    obtain ⟨-, rfl⟩ := crcPush_next h
    exact absurd rfl he
  | frmEncode =>
    obtain ⟨-, ⟨-, rfl⟩ | ⟨-, _, _, -, -, rfl⟩⟩ := frmEncode_next h
    · exact ⟨rfl, .inl rfl⟩
    · exact absurd rfl he
  | frmDecode =>
    obtain ⟨-, ⟨-, rfl⟩ | ⟨-, rfl⟩ | ⟨-, -, _, -, ⟨-, rfl⟩ | ⟨-, -, _, -, rfl⟩⟩⟩ := frmDecode_next h
    · exact ⟨rfl, .inl rfl⟩
    · exact ⟨rfl, .inl rfl⟩
    · exact ⟨rfl, .inr ⟨rfl, rfl⟩⟩
    · exact absurd rfl he
  | frmVerify =>
    obtain ⟨-, ht⟩ := frmVerify_next h
    rw [ht]
    exact ⟨rfl, .inl rfl⟩
  | seqPredict =>
    obtain ⟨-, ⟨_, -, rfl⟩ | ⟨_, -, -, rfl⟩⟩ := seqPredict_next h
    · exact ⟨rfl, .inl rfl⟩
    · exact absurd rfl he
  | seqXchg =>
    obtain ⟨-, ⟨_, -, rfl⟩ | ⟨_, -, -, rfl⟩⟩ := seqXchg_next h
    · exact ⟨rfl, .inl rfl⟩
    · exact absurd rfl he
  | seqClose =>
    obtain ⟨-, rfl⟩ := seqClose_next h
    exact absurd rfl he
  | hostRd | hostWr | crcValue => cases hc

end Machine

end Sys2Proof
end

section
/-! Proofs about 10_state: every step keeps the legal states (R25 to R30, R33, R34) and the parameter `FC_TABLE` (R38);
which steps write the accumulator (R21) and the flags (R33); the fields of `STATUS` (R26, R33); and that `ERR` is not
sticky (R34). -/

namespace Sys2Proof

/-! ## The decoder answers well-formed instructions -/

theorem wf_of_isCommand {i : Instr} (h : Machine.isCommand i = true) : i.wf = true := by
  cases i with
  | hostRd | hostWr => cases h
  | _ => rfl

/-- Of the words written to `CMD`, the decoder leaves a host write only those that are no command word (log 11). -/
theorem wf_hostWr_cmd_iff (v : Word) : (Instr.hostWr 0x000 v).wf = true ↔ decodeCommand v = none := by
  rw [← Option.isSome_eq_false_iff.trans Option.isNone_iff_eq_none, isSome_decodeCommand]
  simp [Instr.wf]

theorem decodeTransaction_wf (t : Transaction) : (decodeTransaction t).wf = true := by
  unfold decodeTransaction
  split
  · split
    · cases hd : decodeCommand (Transaction.data t) with
      | none => exact (wf_hostWr_cmd_iff _).2 hd
      | some i => exact wf_of_isCommand (isCommand_of_decodeCommand hd)
    next hidx => simp [Instr.wf, show Transaction.idx t ≠ 0#12 from hidx]
  · split
    · rfl
    next hidx => simpa [Instr.wf] using hidx

namespace Machine

/-! ## What a host step can leave -/

/-- A host step in `IDLE` that neither starts an exchange nor closes the channel: the sequencer's progress registers, the
flags and `FC_TABLE` stay, memory stays canonical, and `PRED` stays or becomes a predicted length. The default proofs
are those of a state that is `s` with other fields updated. -/
structure State.HostUpdate (s t : State) : Prop where
  idle : s.st = .idle
  st : t.st = s.st := by rfl
  txcnt : t.txcnt = s.txcnt := by rfl
  rxtgt : t.rxtgt = s.rxtgt := by rfl
  waitcnt : t.waitcnt = s.waitcnt := by rfl
  doneBit : t.doneBit = s.doneBit := by rfl
  openBit : t.openBit = s.openBit := by rfl
  fcTable : t.fcTable = s.fcTable := by rfl
  memWf : Memory.wf s.mem = true → Memory.wf t.mem = true := by exact id
  pred : t.pred = s.pred ∨ 4 ≤ t.pred.toNat ∧ t.pred.toNat ≤ 131075 := by exact .inl rfl

/-- The state in which `SEQ.XCHG` leaves an accepted request whose predicted response length is `p` (42_sequencer
R175). -/
def State.accepting (s : State) (p : Nat) : State :=
  { s with
    pred := BitVec.ofNat 32 p, txcnt := 0, rxlen := 0, rxtgt := 4, waitcnt := 0, doneBit := false, err := .none,
    st := if s.openBit then .send else .connect }

theorem State.accepting_busy (s : State) (p : Nat) : (s.accepting p).st ≠ .idle := by
  cases h : s.openBit <;> simp [State.accepting, h]

/-- A well-formed host write: no command hides in it, so it stores a register or a cell, or raises `IllegalCommand`. -/
theorem hostWr_next_of_wf {idx : Index} {v : Word} {s t : State} (hwf : (Instr.hostWr idx v).wf = true)
    (h : exec (.hostWr idx v) s = .next t) : s.st = .idle ∧
    ((∃ r, t = writeReg s v r) ∨
     (∃ (b : Buf) (i : Nat), i < b.size ∧ t = { s with mem := Memory.write s.mem (b.addr i) (v.extractLsb' 0 8) }) ∨
     t = { s with err := .illegalCommand }) := by
  obtain ⟨hidle, ⟨r, -, ht, -⟩ | ⟨b, i, hi, ht, -⟩ | ⟨hidx, ⟨-, ht⟩ | ⟨i, hd, -, -⟩⟩⟩ := hostWr_next h
  · exact ⟨hidle, .inl ⟨r, ht⟩⟩
  · exact ⟨hidle, .inr (.inl ⟨b, i, hi, ht⟩)⟩
  · exact ⟨hidle, .inr (.inr ht)⟩
  · subst hidx
    rw [(wf_hostWr_cmd_iff v).1 hwf] at hd
    cases hd

theorem hostWr_hostUpdate {idx : Index} {v : Word} {s t : State} (hwf : (Instr.hostWr idx v).wf = true)
    (h : exec (.hostWr idx v) s = .next t) : s.HostUpdate t := by
  obtain ⟨idle, ⟨r, rfl⟩ | ⟨b, i, hi, rfl⟩ | rfl⟩ := hostWr_next_of_wf hwf h
  · cases r <;> exact { idle }
  · exact { idle, memWf := Memory.write_wf s.mem _ (Buf.addr_isCellAddr hi) }
  · exact { idle }

theorem frameOf_length (addr fc : Byte) (d : List Byte) : (frameOf addr fc d).length = d.length + 4 := by
  simp [frameOf]

theorem length_of_readCells {m : Memory} {b : Buf} {i n : Nat} {l : List Byte} (hn : i + n ≤ b.size)
    (h : readCells m b i n = .ok l) : l.length = n := by
  obtain ⟨l', hl, hr, -⟩ | ⟨-, hr⟩ := readCells_cases m b i n hn <;> rw [hr] at h <;> cases h
  exact hl

theorem wf_of_writeCells {m m' : Memory} {b : Buf} {i : Nat} {l : List Byte} (hl : i + l.length ≤ b.size)
    (h : writeCells m b i l = .ok m') (hm : Memory.wf m = true) : Memory.wf m' = true := by
  obtain ⟨m'', hr, -, -, hwf⟩ := writeCells_spec m b i l hl
  rw [hr] at h
  cases h
  exact hwf hm

theorem frmEncode_hostUpdate {s t : State} (h : exec .frmEncode s = .next t) : s.HostUpdate t := by
  obtain ⟨idle, ⟨-, rfl⟩ | ⟨hn, d, m, hd, hm, rfl⟩⟩ := frmEncode_next h
  · exact { idle }
  · have hlen : d.length = s.plen.toNat := length_of_readCells (by simpa [Buf.size] using hn) hd
    have hfit : 0 + (frameOf s.uaddr s.ufc d).length ≤ Buf.txbuf.size := by
      rw [frameOf_length, hlen]; simp [Buf.size]; omega
    exact { idle, memWf := wf_of_writeCells hfit hm }

theorem frmDecode_hostUpdate {s t : State} (h : exec .frmDecode s = .next t) : s.HostUpdate t := by
  obtain ⟨idle, ⟨-, rfl⟩ | ⟨-, rfl⟩ | ⟨-, hn, f, hf, ⟨-, rfl⟩ | ⟨-, -, m, hm, rfl⟩⟩⟩ := frmDecode_next h
  · exact { idle }
  · exact { idle }
  · exact { idle }
  · have hfit : 0 + ((f.drop 2).take (s.rxlen.toNat - 4)).length ≤ Buf.pdat.size := by
      simp [Buf.size]; omega
    exact { idle, memWf := wf_of_writeCells hfit hm }

theorem toNat_ofNat_of_predict {s : State} {p : Nat} (h : predict s = .ok p) :
    4 ≤ (BitVec.ofNat 32 p).toNat ∧ (BitVec.ofNat 32 p).toNat ≤ 131075 := by
  obtain ⟨-, hp⟩ := predict_eq_ok h
  rw [BitVec.toNat_ofNat, Nat.mod_eq_of_lt (by omega)]
  exact hp

/-- Everything a host step can leave when it answers next: a read only its result, a host write a `HostUpdate`, with the
two exceptions of `SEQ.CLOSE` and of a request that `SEQ.XCHG` accepts. -/
theorem exec_next_cases {i : Instr} {s t : State} (hwf : i.wf = true) (h : exec i s = .next t) :
    (∃ w, t = s.returning w) ∨ s.HostUpdate t ∨
    (i = .seqClose ∧ s.st = .idle ∧
      t = { s with openBit := false, err := .none, out := { s.out with closeReq := s.openBit } }) ∨
    (i = .seqXchg ∧ ∃ p, reqCheck s = .ok none ∧ predict s = .ok p ∧ t = s.accepting p) := by
  cases i with
  | hostRd idx => exact .inl (hostRd_next h)
  | crcValue => exact .inl ⟨_, crcValue_next h⟩
  | hostWr idx v => exact .inr (.inl (hostWr_hostUpdate hwf h))
  | crcReset =>
    obtain ⟨idle, rfl⟩ := crcReset_next h
    exact .inr (.inl { idle })
  | crcPush b =>
    obtain ⟨idle, rfl⟩ := crcPush_next h
    exact .inr (.inl { idle })
  | frmEncode => exact .inr (.inl (frmEncode_hostUpdate h))
  | frmDecode => exact .inr (.inl (frmDecode_hostUpdate h))
  | frmVerify =>
    obtain ⟨idle, ht⟩ := frmVerify_next h
    rw [ht]
    exact .inr (.inl { idle })
  | seqPredict =>
    obtain ⟨idle, ⟨e, -, rfl⟩ | ⟨p, -, hp, rfl⟩⟩ := seqPredict_next h
    · exact .inr (.inl { idle })
    · exact .inr (.inl { idle, pred := .inr (toNat_ofNat_of_predict hp) })
  | seqXchg =>
    obtain ⟨idle, ⟨e, -, rfl⟩ | ⟨p, hc, hp, rfl⟩⟩ := seqXchg_next h
    · exact .inr (.inl { idle })
    · exact .inr (.inr (.inr ⟨rfl, p, hc, hp, rfl⟩))
  | seqClose =>
    obtain ⟨idle, rfl⟩ := seqClose_next h
    exact .inr (.inr (.inl ⟨rfl, idle, rfl⟩))

/-! ## What no driver event changes -/

theorem onEvent_crc_fcTable {e : Event} {s t : State} (h : onEvent e s = .next t) :
    t.crc = s.crc ∧ t.fcTable = s.fcTable := by
  cases e with
  | openOk => obtain ⟨-, rfl⟩ | ⟨-, rfl⟩ := openOk_next h <;> exact ⟨rfl, rfl⟩
  | openFail => obtain ⟨-, rfl⟩ | ⟨-, rfl⟩ := openFail_next h <;> exact ⟨rfl, rfl⟩
  | txFail => obtain ⟨-, rfl⟩ | ⟨-, rfl⟩ := txFail_next h <;> exact ⟨rfl, rfl⟩
  | rxFail => obtain ⟨-, rfl⟩ | ⟨-, rfl⟩ := rxFail_next h <;> exact ⟨rfl, rfl⟩
  | txAccept =>
    obtain ⟨-, rfl⟩ | ⟨-, _, -, ⟨-, rfl⟩ | ⟨-, rfl⟩⟩ := txAccept_next h <;> exact ⟨rfl, rfl⟩
  | tick => obtain ⟨-, rfl⟩ | ⟨-, -, rfl⟩ | ⟨-, -, rfl⟩ := tick_next h <;> exact ⟨rfl, rfl⟩
  | rxByte b =>
    obtain ⟨-, -, rfl⟩ | ⟨-, _, rfl, ⟨-, -, rfl⟩ | ⟨-, -, _, -, ⟨-, rfl⟩ | ⟨-, rfl⟩⟩ | ⟨-, -, rfl⟩ | ⟨-, -, rfl⟩⟩ :=
      rxByte_next h <;> exact ⟨rfl, rfl⟩

/-! ## What every step keeps -/

theorem takeDriver_next {p : Pins} {s t : State} (h : takeDriver p s = .next t) :
    t = s ∨ ∃ e, onEvent e s = .next t := by
  rw [takeDriver_eq] at h
  split at h
  · exact .inr ⟨_, h⟩
  · cases h; exact .inl rfl

theorem takeHostOf_next {p : Pins} {s t : State} (h : takeHostOf p s = .next t) :
    t = s ∨ ∃ u, takeHost u s = .next t := by
  unfold takeHostOf at h
  split at h
  · exact .inr ⟨_, h⟩
  · cases h; exact .inl rfl

/-- A step keeps what its parts keep: the beginning of a step, well-formed instructions, driver events and reset. A clock
cycle is a sequence of these (60_exceptions R240). -/
theorem step_keeps {P : State → Prop} (begins : ∀ s rest, P s → P (s.beginStep rest))
    (instr : ∀ i s t, i.wf = true → P s → exec i s = .next t → P t)
    (event : ∀ e s t, P s → onEvent e s = .next t → P t)
    (reset : ∀ s t, P s → takeReset s = .next t → P t)
    {s t : State} (hs : P s) (h : step s = .next t) : P t := by
  have host : ∀ x s t, P s → takeHost x s = .next t → P t := fun x s t =>
    instr _ s t (decodeTransaction_wf x)
  cases hi : s.inputs with
  | nil =>
    rw [step_of_inputs_nil hi] at h
    cases h
    exact begins s [] hs
  | cons i rest =>
    rw [step_of_inputs_cons hi] at h
    have hb := begins s rest hs
    cases i with
    | host x => exact host x _ t hb h
    | event e => exact event e _ t hb h
    | reset => exact reset _ t hb h
    | cycle p =>
      simp only [takeInput, takeCycle] at h
      split at h
      · exact reset _ t hb h
      · obtain ⟨u, hd, ht⟩ := resultThen_eq_next h
        have hu : P u := by
          obtain rfl | ⟨e, he⟩ := takeDriver_next hd
          · exact hb
          · exact event e _ u hb he
        obtain rfl | ⟨x, hx⟩ := takeHostOf_next ht
        · exact hu
        · exact host x u t hu hx

theorem exec_fcTable {i : Instr} {s t : State} (hwf : i.wf = true) (h : exec i s = .next t) : t.fcTable = s.fcTable := by
  obtain ⟨w, rfl⟩ | hk | ⟨-, -, rfl⟩ | ⟨-, p, -, -, rfl⟩ := exec_next_cases hwf h
  · rfl
  · exact hk.fcTable
  · rfl
  · rfl

/-! ## The legal states, by the state of the sequencer -/

/-- What a legal state promises while an exchange runs, whatever the phase: the parts of `State.Inv` that do not speak
of the progress registers. -/
structure State.Exchanging (s : State) : Prop where
  memWf : Memory.wf s.mem = true
  err : s.err = .none
  doneBit : s.doneBit = false
  requestLength : 2 ≤ s.txlen.toNat ∧ s.txlen.toNat ≤ 256
  requestCode : s.written .txbuf 1
  predRange : s.pred = 0 ∨ 4 ≤ s.pred.toNat ∧ s.pred.toNat ≤ 131075

theorem State.Inv.exchanging {s : State} (h : s.Inv) (hb : s.st ≠ .idle) : s.Exchanging where
  memWf := h.memWf
  err := h.busyErr hb
  doneBit := h.busyDone hb
  requestLength := h.requestLength hb
  requestCode := h.requestCode hb
  predRange := h.predRange

section
variable {s : State} (h : s.Exchanging)
include h

theorem State.Exchanging.inv_of_connect (hq : s.st = .connect) (ho : s.openBit = false) (ht : s.txcnt = 0)
    (hw : s.waitcnt = 0) (hr : s.rxlen = 0) (hg : s.rxtgt = 4) : s.Inv := by
  obtain ⟨hm, he, hd, hl, hc, hp⟩ := h
  constructor
  case requestCode => exact fun _ => hc
  all_goals simp_all [Seq.sent, Seq.reads]

theorem State.Exchanging.inv_of_send (hq : s.st = .send) (ho : s.openBit = true) (ht : s.txcnt.toNat < s.txlen.toNat)
    (hw : s.waitcnt = 0) (hr : s.rxlen = 0) (hg : s.rxtgt = 4) : s.Inv := by
  obtain ⟨hm, he, hd, hl, hc, hp⟩ := h
  have : s.txcnt.toNat ≤ 256 := by omega
  constructor
  case requestCode => exact fun _ => hc
  all_goals simp_all [Seq.sent, Seq.reads]

theorem State.Exchanging.inv_of_wait (hq : s.st = .wait) (ho : s.openBit = true) (ht : s.txcnt = s.txlen)
    (hw : 1 ≤ s.waitcnt.toNat ∧ s.waitcnt.toNat ≤ 3875000000) (hr : s.rxlen = 0) (hg : s.rxtgt = 4) : s.Inv := by
  obtain ⟨hm, he, hd, hl, hc, hp⟩ := h
  constructor
  case requestCode => exact fun _ => hc
  all_goals simp_all [Seq.sent, Seq.reads]

theorem State.Exchanging.inv_of_readMin (hq : s.st = .readMin) (ho : s.openBit = true) (ht : s.txcnt = s.txlen)
    (hw : s.waitcnt = 0) (hr : s.rxlen.toNat < 4) (hg : s.rxtgt = 4)
    (hrx : ∀ k, k < s.rxlen.toNat → s.written .rxbuf k) : s.Inv := by
  obtain ⟨hm, he, hd, hl, hc, hp⟩ := h
  constructor
  case requestCode => exact fun _ => hc
  case rxWritten => exact fun _ => hrx
  all_goals simp_all [Seq.sent]

theorem State.Exchanging.inv_of_readRem (hq : s.st = .readRem) (ho : s.openBit = true) (ht : s.txcnt = s.txlen)
    (hw : s.waitcnt = 0) (hr : 4 ≤ s.rxlen.toNat ∧ s.rxlen.toNat < s.rxtgt.toNat) (hg : s.rxtgt.toNat ≤ 256)
    (hrx : ∀ k, k < s.rxlen.toNat → s.written .rxbuf k) : s.Inv := by
  obtain ⟨hm, he, hd, hl, hc, hp⟩ := h
  have : 4 ≤ s.rxtgt.toNat := by omega
  constructor
  case requestCode => exact fun _ => hc
  case rxWritten => exact fun _ => hrx
  all_goals simp_all [Seq.sent]

end

/-! ## Every step keeps the legal states -/

/-- An exchange may end anywhere but in `WAIT`: `WAITCNT` is 0 there, so going to `IDLE` with the other progress registers
kept leaves a legal state. -/
theorem State.Inv.to_idle {s t : State} (h : s.Inv) (hw : s.st ≠ .wait) (hst : t.st = .idle)
    (hm : Memory.wf t.mem = true) (ht : t.txcnt = s.txcnt) (hg : t.rxtgt = s.rxtgt) (hp : t.pred = s.pred)
    (hwait : t.waitcnt = s.waitcnt) : t.Inv :=
  .of_idle hst hm (hwait.trans (h.waitZero hw)) (hg ▸ h.rxTargetRange) (ht ▸ h.txCountRange) (hp ▸ h.predRange)

theorem openOk_inv {s t : State} (h : s.Inv) (hn : onEvent .openOk s = .next t) : t.Inv := by
  obtain ⟨-, rfl⟩ | ⟨hq, rfl⟩ := openOk_next hn
  · exact h
  · have hb : s.st ≠ .idle := by simp [hq]
    have hx := h.exchanging hb
    have hlt : s.txcnt.toNat < s.txlen.toNat := by
      rw [h.connectCount hq]
      exact Nat.lt_of_lt_of_le Nat.two_pos hx.requestLength.1
    exact State.Exchanging.inv_of_send { hx with } rfl rfl hlt (h.waitZero (by simp [hq])) (h.rxEmpty (.inl hq))
      (h.rxTargetFour hb (by simp [hq]))

theorem waitUs_range {baud chars : Nat} (h : chars ≤ 256) :
    1 ≤ waitUs baud chars ∧ waitUs baud chars ≤ 3875000000 := by
  have hc := charDelay_range baud
  have hf := frameDelay_range baud
  have hmul : charDelay baud * chars ≤ 15000000 * 256 := Nat.mul_le_mul hc.2 h
  unfold waitUs
  omega

theorem txAccept_inv {s t : State} (h : s.Inv) (hn : onEvent .txAccept s = .next t) : t.Inv := by
  obtain ⟨-, rfl⟩ | ⟨hq, b, -, hcase⟩ := txAccept_next hn
  · exact h
  · have hb : s.st ≠ .idle := by simp [hq]
    have hx := h.exchanging hb
    have hopen := h.pastConnectOpen (.inl hq)
    have hrx := h.rxEmpty (.inr (.inl hq))
    have htgt := h.rxTargetFour hb (by simp [hq])
    have hlt := h.sendCount hq
    obtain ⟨hne, rfl⟩ | ⟨heq, rfl⟩ := hcase
    · have hlt' : (s.txcnt + 1).toNat < s.txlen.toNat := by bv_omega
      exact State.Exchanging.inv_of_send { hx with } hq hopen hlt' (h.waitZero (by simp [hq])) hrx htgt
    · have hwait := waitUs_range (baud := s.baud.toNat) hx.requestLength.2
      refine State.Exchanging.inv_of_wait { hx with } rfl hopen heq ?_ hrx htgt
      rw [BitVec.toNat_ofNat, Nat.mod_eq_of_lt (by omega)]
      exact hwait

theorem tick_inv {s t : State} (h : s.Inv) (hn : onEvent .tick s = .next t) : t.Inv := by
  obtain ⟨-, rfl⟩ | hcase := tick_next hn
  · exact h
  · have hq : s.st = .wait := by obtain ⟨hq, -⟩ | ⟨hq, -⟩ := hcase <;> exact hq
    have hb : s.st ≠ .idle := by simp [hq]
    have hx := h.exchanging hb
    have hsent : s.st.sent = true := by simp [hq, Seq.sent]
    have hopen := h.pastConnectOpen (.inr hsent)
    have hcount := h.sentCount hsent
    have hrx := h.rxEmpty (.inr (.inr hq))
    have htgt := h.rxTargetFour hb (by simp [hq])
    obtain ⟨-, hzero, rfl⟩ | ⟨-, hpos, rfl⟩ := hcase
    · refine State.Exchanging.inv_of_readMin { hx with } rfl hopen hcount hzero ?_ htgt ?_ <;> simp [hrx]
    · have hwait := h.waitRange hq
      have hwait' : 1 ≤ (s.waitcnt - 1).toNat ∧ (s.waitcnt - 1).toNat ≤ 3875000000 := by bv_omega
      exact State.Exchanging.inv_of_wait { hx with } hq hopen hcount hwait' hrx htgt

/-- The state of a read phase after a byte is stored and counted (42_sequencer R182, R184). -/
def State.received (s : State) (b : Byte) : State :=
  { s with mem := Memory.write s.mem (Buf.rxbuf.addr s.rxlen.toNat) b, rxlen := s.rxlen + 1 }

theorem State.received_rxlen_toNat {s : State} (b : Byte) (hlt : s.rxlen.toNat < 256) :
    (s.received b).rxlen.toNat = s.rxlen.toNat + 1 := by
  show (s.rxlen + 1).toNat = _
  bv_omega

theorem isSome_read_write {m : Memory} {a : Nat} (h : (Memory.read m a).isSome = true) (a' : Nat) (b : Byte) :
    (Memory.read (Memory.write m a' b) a).isSome = true := by
  rw [Memory.read_write]
  split
  · rfl
  · exact h

theorem State.received_written {s : State} (b : Byte) (hlt : s.rxlen.toNat < 256)
    (h : ∀ k, k < s.rxlen.toNat → s.written .rxbuf k) :
    ∀ k, k < (s.received b).rxlen.toNat → (s.received b).written .rxbuf k := by
  intro k hk
  rw [State.received_rxlen_toNat b hlt] at hk
  obtain hk | rfl := Nat.lt_succ_iff_lt_or_eq.1 hk
  · exact isSome_read_write (h k hk) _ b
  · simp [State.written, State.received]

theorem State.Exchanging.received {s : State} (h : s.Exchanging) (b : Byte) (hlt : s.rxlen.toNat < 256) :
    (s.received b).Exchanging :=
  { h with
    memWf := Memory.write_wf s.mem b (Buf.addr_isCellAddr hlt) h.memWf
    requestCode := isSome_read_write h.requestCode _ b }

/-- A decided length other than 4 fits the read phase: bytes remain, and they fit the buffer (42_sequencer R183). -/
theorem toNat_ofNat_targetOf {fc r : Byte} {p : Nat} (h : targetOf fc r p ≠ 4) :
    4 < (BitVec.ofNat 16 (targetOf fc r p)).toNat ∧ (BitVec.ofNat 16 (targetOf fc r p)).toNat ≤ 256 := by
  have hcases := targetOf_cases fc r p
  rw [BitVec.toNat_ofNat, Nat.mod_eq_of_lt (by omega)]
  omega

theorem Seq.of_reads {q : Seq} (h : q.reads = true) : q ≠ .idle ∧ q ≠ .wait ∧ q.sent = true := by
  cases q with
  | readMin | readRem => exact ⟨nofun, nofun, rfl⟩
  | _ => cases h

theorem rxByte_inv {b : Byte} {s t : State} (h : s.Inv) (hn : onEvent (.rxByte b) s = .next t) : t.Inv := by
  obtain ⟨-, -, rfl⟩ | ⟨hlt, u, hu, hcase⟩ := rxByte_next hn
  · exact h
  · change u = s.received b at hu
    subst hu
    have hreads : s.st.reads = true := by
      obtain ⟨hq, -⟩ | ⟨hq, -⟩ | ⟨hq, -⟩ | ⟨hq, -⟩ := hcase <;> rw [hq] <;> rfl
    obtain ⟨hb, hw, hsent⟩ := Seq.of_reads hreads
    have hopen := h.pastConnectOpen (.inr hsent)
    have hcount := h.sentCount hsent
    have hx := (h.exchanging hb).received b hlt
    have hrx := State.received_written b hlt (h.rxWritten hreads)
    have hlen := State.received_rxlen_toNat b hlt
    obtain ⟨hq, hne, rfl⟩ | ⟨hq, heq, n, htgt, ⟨-, rfl⟩ | ⟨hn4, rfl⟩⟩ | ⟨hq, hne, rfl⟩ | ⟨hq, -, rfl⟩ := hcase
    · have hmin := h.readMinLength hq
      have hlt4 : (s.received b).rxlen.toNat < 4 := by bv_omega
      exact hx.inv_of_readMin hq hopen hcount (h.waitZero hw) hlt4 (h.rxTargetFour hb (by simp [hq])) hrx
    · exact h.to_idle hw rfl hx.memWf rfl (h.rxTargetFour hb (by simp [hq])).symm rfl rfl
    · obtain ⟨fc, r, -, -, rfl⟩ := target_eq_ok htgt
      obtain ⟨hgt, hle⟩ := toNat_ofNat_targetOf hn4
      have hlen4 : (s.received b).rxlen.toNat = 4 := congrArg BitVec.toNat heq
      exact State.Exchanging.inv_of_readRem { hx with } rfl hopen hcount (h.waitZero hw)
        ⟨hlen4.ge, hlen4.trans_lt hgt⟩ hle hrx
    · have hrem := h.readRemLength hq
      have hbound : s.rxtgt.toNat ≤ 256 := by
        obtain hz | ⟨-, hle⟩ := h.rxTargetRange
        · simp [hz]
        · exact hle
      have hlt' : (s.received b).rxlen.toNat < s.rxtgt.toNat := by bv_omega
      exact hx.inv_of_readRem hq hopen hcount (h.waitZero hw) ⟨by omega, hlt'⟩ hbound hrx
    · exact h.to_idle hw rfl hx.memWf rfl rfl rfl rfl

theorem onEvent_inv {e : Event} {s t : State} (h : s.Inv) (hn : onEvent e s = .next t) : t.Inv := by
  cases e with
  | openOk => exact openOk_inv h hn
  | txAccept => exact txAccept_inv h hn
  | tick => exact tick_inv h hn
  | rxByte b => exact rxByte_inv h hn
  | openFail =>
    obtain ⟨-, rfl⟩ | ⟨hq, rfl⟩ := openFail_next hn
    · exact h
    · exact h.to_idle (by simp [hq]) rfl h.memWf rfl rfl rfl rfl
  | txFail =>
    obtain ⟨-, rfl⟩ | ⟨hq, rfl⟩ := txFail_next hn
    · exact h
    · exact h.to_idle (by simp [hq]) rfl h.memWf rfl rfl rfl rfl
  | rxFail =>
    obtain ⟨-, rfl⟩ | ⟨hq, rfl⟩ := rxFail_next hn
    · exact h
    · exact h.to_idle (by obtain hq | hq := hq <;> simp [hq]) rfl h.memWf rfl rfl rfl rfl

theorem State.HostUpdate.inv {s t : State} (hk : s.HostUpdate t) (h : s.Inv) : t.Inv := by
  have hpred : t.pred = 0 ∨ 4 ≤ t.pred.toNat ∧ t.pred.toNat ≤ 131075 := by
    obtain hp | hp := hk.pred
    · exact hp ▸ h.predRange
    · exact .inr hp
  exact .of_idle (hk.st.trans hk.idle) (hk.memWf h.memWf) (hk.waitcnt.trans (h.waitZero (by simp [hk.idle])))
    (hk.rxtgt ▸ h.rxTargetRange) (hk.txcnt ▸ h.txCountRange) hpred

/-- `req_check` passes only requests of 2 to 256 bytes (42_sequencer R174). -/
theorem requestLength_of_reqCheck {s : State} (h : reqCheck s = .ok none) :
    2 ≤ s.txlen.toNat ∧ s.txlen.toNat ≤ 256 := by
  obtain ⟨he, -⟩ | ⟨he, -⟩ | ⟨hlo, hhi, -⟩ := reqCheck_eq_ok h
  · cases he
  · cases he
  · exact ⟨hlo, hhi⟩

/-- The acceptance of a request that passes `req_check` and has a prediction (42_sequencer R175). -/
theorem State.Inv.accepting {s : State} {p : Nat} (h : s.Inv) (hc : reqCheck s = .ok none) (hp : predict s = .ok p) :
    (s.accepting p).Inv := by
  have hlen := requestLength_of_reqCheck hc
  have hx : (s.accepting p).Exchanging :=
    ⟨h.memWf, rfl, rfl, hlen, (predict_eq_ok hp).1, .inr (toNat_ofNat_of_predict hp)⟩
  cases ho : s.openBit with
  | false => exact hx.inv_of_connect (by simp [State.accepting, ho]) ho rfl rfl rfl rfl
  | true => exact hx.inv_of_send (by simp [State.accepting, ho]) ho (Nat.lt_of_lt_of_le Nat.two_pos hlen.1) rfl rfl rfl

theorem exec_inv {i : Instr} {s t : State} (hwf : i.wf = true) (h : s.Inv) (hn : exec i s = .next t) : t.Inv := by
  obtain ⟨w, rfl⟩ | hk | ⟨-, hidle, rfl⟩ | ⟨-, p, hc, hp, rfl⟩ := exec_next_cases hwf hn
  · exact h.with_io s.inputs _
  · exact hk.inv h
  · exact h.to_idle (by simp [hidle]) hidle h.memWf rfl rfl rfl rfl
  · exact h.accepting hc hp

theorem takeReset_inv {s t : State} (h : takeReset s = .next t) : t.Inv := by
  cases h
  exact .of_idle rfl rfl rfl (.inl rfl) (Nat.zero_le _) (.inl rfl)

/-- Settles O50: each part of a step keeps `State.Inv`. -/
theorem stepKeepsLegalStates : Obligations.StepKeepsLegalStates := by
  intro s t hs h
  exact step_keeps (fun _ rest hs => hs.with_io rest Outputs.quiet) (fun _ _ _ hwf hs => exec_inv hwf hs)
    (fun _ _ _ hs => onEvent_inv hs) (fun _ _ _ => takeReset_inv) hs h

/-- Settles O57: each part of a step keeps the table, reset included. -/
theorem everyStepKeepsTheTable : Obligations.EveryStepKeepsTheTable := by
  intro s t h
  refine step_keeps (P := fun u => u.fcTable = s.fcTable) (fun _ _ hs => hs)
    (fun _ _ _ hwf hs hn => (exec_fcTable hwf hn).trans hs)
    (fun _ _ _ hs hn => (onEvent_crc_fcTable hn).2.trans hs) (fun _ _ hs hn => ?_) rfl h
  cases hn
  exact hs

/-! ## Who writes the accumulator and the flags -/

theorem writeReg_crc (s : State) (v : Word) (r : Reg) : (writeReg s v r).crc = s.crc := by
  cases r <;> rfl

/-- Settles O13: the inversion lemma of each other instruction leaves `CRC` as it was. -/
theorem onlyFourCommandsWriteCrc : Obligations.OnlyFourCommandsWriteCrc := by
  refine ⟨fun i s t hwf h => ?_, fun e s t h => (onEvent_crc_fcTable h).1⟩
  cases i with
  | crcReset => exact .inr (.inl rfl)
  | crcPush b => exact .inr (.inr (.inl ⟨b, rfl⟩))
  | frmEncode => exact .inr (.inr (.inr (.inl rfl)))
  | frmDecode => exact .inr (.inr (.inr (.inr rfl)))
  | frmVerify =>
    obtain ⟨-, ht⟩ := frmVerify_next h
    rw [ht]
    exact .inl rfl
  | seqPredict => obtain ⟨-, ⟨_, -, rfl⟩ | ⟨_, -, -, rfl⟩⟩ := seqPredict_next h <;> exact .inl rfl
  | seqXchg => obtain ⟨-, ⟨_, -, rfl⟩ | ⟨_, -, -, rfl⟩⟩ := seqXchg_next h <;> exact .inl rfl
  | seqClose => obtain ⟨-, rfl⟩ := seqClose_next h; exact .inl rfl
  | hostRd idx => obtain ⟨_, rfl⟩ := hostRd_next h; exact .inl rfl
  | hostWr idx v =>
    obtain ⟨-, ⟨r, rfl⟩ | ⟨_, _, -, rfl⟩ | rfl⟩ := hostWr_next_of_wf hwf h
    · exact .inl (writeReg_crc s v r)
    · exact .inl rfl
    · exact .inl rfl
  | crcValue => obtain rfl := crcValue_next h; exact .inl rfl

/-- Settles O33: of the host steps only the acceptance of `SEQ.XCHG` and `SEQ.CLOSE` touch a flag (`exec_next_cases`); of
the events only `OpenOk` in `CONNECT` and the `RxByte` that ends an exchange. -/
theorem flagsChangeOnlyAsListed : Obligations.FlagsChangeOnlyAsListed := by
  refine ⟨fun i s t hwf h => ?_, fun e s t h => ?_⟩
  · obtain ⟨w, rfl⟩ | hk | ⟨hi, -, rfl⟩ | ⟨hi, p, -, -, rfl⟩ := exec_next_cases hwf h
    · exact ⟨.inl rfl, .inl rfl⟩
    · exact ⟨.inl hk.doneBit, .inl hk.openBit⟩
    · exact ⟨.inl rfl, .inr ⟨hi, rfl⟩⟩
    · exact ⟨.inr ⟨hi, s.accepting_busy p, rfl⟩, .inl rfl⟩
  · cases e with
    | openOk =>
      obtain ⟨-, rfl⟩ | ⟨hq, rfl⟩ := openOk_next h
      · exact ⟨.inl rfl, .inl rfl⟩
      · exact ⟨.inl rfl, .inr ⟨rfl, hq, rfl⟩⟩
    | openFail => obtain ⟨-, rfl⟩ | ⟨-, rfl⟩ := openFail_next h <;> exact ⟨.inl rfl, .inl rfl⟩
    | txFail => obtain ⟨-, rfl⟩ | ⟨-, rfl⟩ := txFail_next h <;> exact ⟨.inl rfl, .inl rfl⟩
    | rxFail => obtain ⟨-, rfl⟩ | ⟨-, rfl⟩ := rxFail_next h <;> exact ⟨.inl rfl, .inl rfl⟩
    | txAccept =>
      obtain ⟨-, rfl⟩ | ⟨-, _, -, ⟨-, rfl⟩ | ⟨-, rfl⟩⟩ := txAccept_next h <;> exact ⟨.inl rfl, .inl rfl⟩
    | tick => obtain ⟨-, rfl⟩ | ⟨-, -, rfl⟩ | ⟨-, -, rfl⟩ := tick_next h <;> exact ⟨.inl rfl, .inl rfl⟩
    | rxByte b =>
      obtain ⟨-, -, rfl⟩ | ⟨-, _, rfl, ⟨-, -, rfl⟩ | ⟨hq, -, _, -, ⟨-, rfl⟩ | ⟨-, rfl⟩⟩ | ⟨-, -, rfl⟩ |
        ⟨hq, -, rfl⟩⟩ := rxByte_next h
      · exact ⟨.inl rfl, .inl rfl⟩
      · exact ⟨.inl rfl, .inl rfl⟩
      · exact ⟨.inr ⟨⟨b, rfl⟩, by simp [hq], rfl, rfl⟩, .inl rfl⟩
      · exact ⟨.inl rfl, .inl rfl⟩
      · exact ⟨.inl rfl, .inl rfl⟩
      · exact ⟨.inr ⟨⟨b, rfl⟩, by simp [hq], rfl, rfl⟩, .inl rfl⟩

/-! ## `STATUS` and `ERR` -/

/-- Above the three flags `STATUS` holds `ST` between two zero fields (10_state R33). -/
theorem extractLsb'_statusView (s : State) (k n : Nat) :
    (statusView s).extractLsb' (k + 3) n = (0#21 ++ s.st.code ++ 0#5).extractLsb' k n := by
  unfold statusView
  rw [BitVec.extractLsb'_append_eq_of_le (by omega), BitVec.extractLsb'_append_eq_of_le (by omega),
    BitVec.extractLsb'_append_eq_of_le (by omega)]
  rfl

/-- Settles O36: the flags are the three lowest bits, and the fields above them stand at 0, 5 and 8 of the rest. -/
theorem statusFields : Obligations.StatusFields := by
  refine ⟨fun s => ⟨?_, ?_, ?_, ?_, ?_, ?_⟩, rfl, rfl, rfl, rfl, rfl, rfl⟩
  · simp only [statusView, BitVec.getLsbD_append]; simp [State.busy]
  · simp only [statusView, BitVec.getLsbD_append]; simp
  · simp only [statusView, BitVec.getLsbD_append]; simp
  · rw [extractLsb'_statusView s 0, BitVec.extractLsb'_append_eq_right]; rfl
  · rw [extractLsb'_statusView s 5, BitVec.extractLsb'_append_eq_of_le (by omega)]
    exact BitVec.extractLsb'_append_eq_right
  · rw [extractLsb'_statusView s 8, BitVec.extractLsb'_append_eq_of_le (by omega)]
    exact BitVec.extractLsb'_append_eq_left

/-- Settles O44: `raise` and `succeed` overwrite `ERR` and no command reads it, so a command run from another code is the
same computation; a host read changes only the result port, a host write off `CMD` only its register or cell. -/
theorem errIsOverwrittenByEveryCommand : Obligations.ErrIsOverwrittenByEveryCommand := by
  refine ⟨fun i s e hi => ?_, fun idx s t h => ?_, fun idx v s t hidx h => ?_⟩
  · cases i with
    | hostRd | hostWr | crcValue => cases hi
    | _ => rfl
  · obtain ⟨_, rfl⟩ := hostRd_next h
    rfl
  · obtain ⟨-, ⟨r, -, rfl, -⟩ | ⟨_, _, -, rfl, -⟩ | ⟨hz, -⟩⟩ := hostWr_next h
    · cases r <;> rfl
    · rfl
    · exact absurd hz hidx

end Machine

end Sys2Proof
end

section
/-! Proofs about 20_memory: what a host read returns (R61) and a host write does (R62 to R64), target by target, that an
unmapped index is refused (R65), and that every read of an unwritten cell is refused (R66). -/

namespace Sys2Proof.Machine

/-! ## The host port, by what the index names -/

theorem hostRd_of_reg {idx : Index} {r : Reg} (h : hostTarget idx = .reg r) (s : State) :
    exec (.hostRd idx) s = .next (s.returning (readReg s r)) := by
  simp only [exec, execHostRd, h]
  rfl

theorem hostRd_of_cell {b : Buf} {i : Nat} (h : i < b.size) (s : State) :
    exec (.hostRd (BitVec.ofNat 12 (b.addr i))) s =
      (readCell s.mem b i).andThen fun v => .next (s.returning (v.setWidth 32)) := by
  simp only [exec, execHostRd, hostTarget_of_cell b i h]
  rfl

theorem hostRd_of_written {s : State} {b : Buf} {i : Nat} {v : Byte} (h : i < b.size) (hv : s.cell b i = some v) :
    exec (.hostRd (BitVec.ofNat 12 (b.addr i))) s = .next (s.returning (v.setWidth 32)) := by
  rw [hostRd_of_cell h, readCell_of_read h hv, Access.andThen_ok]

theorem hostRd_of_unwritten {s : State} {b : Buf} {i : Nat} (h : i < b.size) (hv : s.cell b i = none) :
    exec (.hostRd (BitVec.ofNat 12 (b.addr i))) s = .refused .unwrittenCell := by
  rw [hostRd_of_cell h, readCell_of_unwritten h hv, Access.andThen_refused]

theorem hostRd_of_unmapped {idx : Index} (h : hostTarget idx = .unmapped) (s : State) :
    exec (.hostRd idx) s = .refused .unmappedIndex := by
  simp only [exec, execHostRd, h]

theorem hostWr_of_busy {s : State} (h : s.st ≠ .idle) (idx : Index) (v : Word) :
    exec (.hostWr idx v) s = .refused .hostWriteWhileBusy :=
  whenIdle_of_busy h _

theorem hostWr_cmd (s : State) (v : Word) : exec (.hostWr 0x000 v) s = whenIdle s (runCommand v s) := rfl

/-- The registers and views on which a host write has no effect (20_memory R64). -/
def readOnlyRegs : List Reg := [.status, .err, .crc, .chdly, .frdly, .pred, .waitcnt, .txcnt, .rxtgt]

theorem writeReg_of_readOnly {r : Reg} (h : r ∈ readOnlyRegs) (s : State) (v : Word) : writeReg s v r = s := by
  unfold readOnlyRegs at h
  fin_cases h <;> rfl

theorem ne_cmd_of_readOnly {r : Reg} (h : r ∈ readOnlyRegs) : r ≠ .cmd :=
  ne_of_mem_of_not_mem h (by decide)

section
variable {s : State} (hidle : s.st = .idle) (v : Word)
include hidle

theorem hostWr_of_reg {idx : Index} {r : Reg} (h : hostTarget idx = .reg r) (hr : r ≠ .cmd) :
    exec (.hostWr idx v) s = .next (writeReg s v r) := by
  simp only [exec, execHostWr, whenIdle_of_idle hidle, h, if_neg hr]

theorem hostWr_of_cell {b : Buf} {i : Nat} (h : i < b.size) :
    exec (.hostWr (BitVec.ofNat 12 (b.addr i)) v) s =
      .next { s with mem := Memory.write s.mem (b.addr i) (v.extractLsb' 0 8) } := by
  simp only [exec, execHostWr, whenIdle_of_idle hidle, hostTarget_of_cell b i h, writeCell_ok h, Access.andThen_ok]
  rfl

theorem hostWr_of_unmapped {idx : Index} (h : hostTarget idx = .unmapped) :
    exec (.hostWr idx v) s = .refused .unmappedIndex := by
  simp only [exec, execHostWr, whenIdle_of_idle hidle, h]

end

/-- Settles O37, by what the index names: `CMD` runs its word (`runCommand_eq`), another register follows `writeReg`,
which leaves the read-only ones alone, and a cell is written as `State.stored_write` says. -/
theorem hostWriteFollowsItsTarget : Obligations.HostWriteFollowsItsTarget := by
  intro s v
  refine ⟨fun hbusy idx => hostWr_of_busy hbusy idx v, fun hidle => ⟨fun i hd => ?command, fun hd => ?illegal,
    hostWr_of_reg hidle v (r := .uaddr) rfl nofun, hostWr_of_reg hidle v (r := .ufc) rfl nofun,
    hostWr_of_reg hidle v (r := .plen) rfl nofun, hostWr_of_reg hidle v (r := .txlen) rfl nofun,
    hostWr_of_reg hidle v (r := .rxlen) rfl nofun, hostWr_of_reg hidle v (r := .baud) rfl nofun,
    fun idx hidx => ?readOnly, fun b i hi => ⟨_, hostWr_of_cell hidle v hi, s.stored_write b i _⟩,
    fun idx hidx => hostWr_of_unmapped hidle v (hostTarget_of_unmapped hidx)⟩⟩
  case command => rw [hostWr_cmd, whenIdle_of_idle hidle, runCommand_eq, hd]
  case illegal =>
    rw [hostWr_cmd, runCommand_eq, hd, whenIdle_whenIdle, whenIdle_of_idle hidle]
    rfl
  case readOnly =>
    obtain ⟨r, hr, ht⟩ : ∃ r ∈ readOnlyRegs, hostTarget idx = .reg r := by fin_cases hidx <;> decide
    rw [hostWr_of_reg hidle v ht (ne_cmd_of_readOnly hr), writeReg_of_readOnly hr]

/-- Settles O34: one read of each register, then the cells and the unmapped indices. -/
theorem hostReadReturnsTheView : Obligations.HostReadReturnsTheView := by
  intro s
  exact ⟨hostRd_of_reg (r := .cmd) rfl s, hostRd_of_reg (r := .status) rfl s, hostRd_of_reg (r := .err) rfl s,
    hostRd_of_reg (r := .crc) rfl s, hostRd_of_reg (r := .uaddr) rfl s, hostRd_of_reg (r := .ufc) rfl s,
    hostRd_of_reg (r := .plen) rfl s, hostRd_of_reg (r := .txlen) rfl s, hostRd_of_reg (r := .rxlen) rfl s,
    hostRd_of_reg (r := .baud) rfl s, hostRd_of_reg (r := .chdly) rfl s, hostRd_of_reg (r := .frdly) rfl s,
    hostRd_of_reg (r := .pred) rfl s, hostRd_of_reg (r := .waitcnt) rfl s, hostRd_of_reg (r := .txcnt) rfl s,
    hostRd_of_reg (r := .rxtgt) rfl s, fun _ _ _ => hostRd_of_written, fun _ _ => hostRd_of_unwritten,
    fun _ hidx => hostRd_of_unmapped (hostTarget_of_unmapped hidx) s⟩

/-- Settles O35: both refusals follow from the map; while busy the write is refused before its index is looked at. -/
theorem unmappedIndicesAreRefused : Obligations.UnmappedIndicesAreRefused := by
  intro s idx v hidx
  have h := hostTarget_of_unmapped hidx
  exact ⟨hostRd_of_unmapped h s, fun hidle => hostWr_of_unmapped hidle v h, fun hbusy => hostWr_of_busy hbusy idx v⟩

/-! ## Reading unwritten cells -/

theorem State.cell_eq_none_iff {s : State} {b : Buf} {i : Nat} : s.cell b i = none ↔ ¬s.written b i :=
  Option.not_isSome_iff_eq_none.symm

/-- Two reads of which one is of an unwritten cell: the first that is refuses. -/
theorem readCell_refused_of_unwritten {s : State} {b b' : Buf} {i i' : Nat} (hi : i < b.size) (hi' : i' < b'.size)
    (h : ¬s.written b i ∨ ¬s.written b' i') :
    readCell s.mem b i = .refused .unwrittenCell ∨
    ∃ v, readCell s.mem b i = .ok v ∧ readCell s.mem b' i' = .refused .unwrittenCell := by
  cases hv : s.cell b i with
  | none => exact .inl (readCell_of_unwritten hi hv)
  | some v =>
    have hw : s.written b i := Option.isSome_of_eq_some hv
    have hu : s.cell b' i' = none := State.cell_eq_none_iff.2 (h.resolve_left (not_not_intro hw))
    exact .inr ⟨v, readCell_of_read hi hv, readCell_of_unwritten hi' hu⟩

theorem readCells_of_unwritten {s : State} {b : Buf} {n : Nat} (hn : n ≤ b.size)
    (h : ∃ k, k < n ∧ ¬s.written b k) : readCells s.mem b 0 n = .refused .unwrittenCell := by
  obtain ⟨l, rfl, -, hl⟩ | ⟨-, hr⟩ := readCells_cases s.mem b 0 n (by omega)
  · obtain ⟨k, hk, hu⟩ := h
    have hw : s.cell b k = some l[k] := by simpa using hl k hk
    exact absurd (Option.isSome_of_eq_some hw) hu
  · exact hr

/-! ## The commands and events up to their reads -/

/-- `FRM.ENCODE` past its length test (41_framer R141). -/
theorem frmEncode_of_le {s : State} (hidle : s.st = .idle) (hn : s.plen.toNat ≤ 252) :
    exec .frmEncode s =
      (readCells s.mem .pdat 0 s.plen.toNat).andThen fun d =>
        (writeCells s.mem .txbuf 0 (frameOf s.uaddr s.ufc d)).andThen fun m =>
          .next { s with
            crc := crc16 (s.uaddr :: s.ufc :: d), mem := m, txlen := BitVec.ofNat 16 (s.plen.toNat + 4),
            err := .none } :=
  (whenIdle_of_idle hidle _).trans (if_neg (show ¬s.plen.toNat + 4 > 256 by omega))

theorem frmDecode_of_unwritten {s : State} (hidle : s.st = .idle) (h4 : 4 ≤ s.rxlen.toNat)
    (h256 : s.rxlen.toNat ≤ 256) (h : ∃ k, k < s.rxlen.toNat ∧ ¬s.written .rxbuf k) :
    exec .frmDecode s = .refused .unwrittenCell := by
  have hr : readCells s.mem .rxbuf 0 s.rxlen.toNat = .refused .unwrittenCell := readCells_of_unwritten h256 h
  simp only [exec, execFrmDecode, whenIdle_of_idle hidle, gt_iff_lt, if_neg (not_lt.2 h4),
    if_neg (not_lt.2 h256), hr, Access.andThen_refused]

/-- `FRM.VERIFY` past its two length tests (41_framer R143). -/
theorem frmVerify_of_lengths {s : State} (hidle : s.st = .idle) (h4 : 4 ≤ s.rxlen.toNat) (h1 : 1 ≤ s.txlen.toNat) :
    exec .frmVerify s =
      (readCell s.mem .rxbuf 0).andThen fun r =>
        (readCell s.mem .txbuf 0).andThen fun q => if r ≠ q then raise .addressMismatch s else succeed s :=
  (whenIdle_of_idle hidle _).trans ((if_neg (not_lt.2 h4)).trans (if_neg (not_lt.2 h1)))

/-- `req_check` on a request whose length is in range and whose function code is written (42_sequencer R174). -/
theorem reqCheck_of_code {s : State} {fc : Byte} (h2 : 2 ≤ s.txlen.toNat) (h256 : s.txlen.toNat ≤ 256)
    (hfc : s.cell .txbuf 1 = some fc) :
    reqCheck s =
      .ok (if (s.familyOf fc = .bitRead ∨ s.familyOf fc = .registerRead) ∧ s.txlen.toNat < 6 then
          some .frameTooShort
        else none) := by
  have hr : readCell s.mem .txbuf 1 = .ok fc := readCell_of_read (by decide) hfc
  simp only [reqCheck, gt_iff_lt, if_neg (not_lt.2 h2), if_neg (not_lt.2 h256), hr, Access.bind_ok, hasQuantity_iff,
    apply_ite Access.ok]

theorem reqCheck_of_unwritten {s : State} (h2 : 2 ≤ s.txlen.toNat) (h256 : s.txlen.toNat ≤ 256)
    (h : ¬s.written .txbuf 1) : reqCheck s = .refused .unwrittenCell := by
  have hr : readCell s.mem .txbuf 1 = .refused .unwrittenCell :=
    readCell_of_unwritten (by decide) (State.cell_eq_none_iff.2 h)
  simp only [reqCheck, gt_iff_lt, if_neg (not_lt.2 h2), if_neg (not_lt.2 h256), hr, Access.bind_refused]

/-- The prediction for a code that carries a quantity (42_sequencer R172). -/
theorem predict_of_quantity {s : State} {fc : Byte} (hfc : s.cell .txbuf 1 = some fc)
    (hq : s.familyOf fc = .bitRead ∨ s.familyOf fc = .registerRead) :
    predict s =
      (readCell s.mem .txbuf 4).bind fun hi =>
        (readCell s.mem .txbuf 5).bind fun lo => .ok (predictedLength (s.familyOf fc) (be16 hi lo)) := by
  have hr : readCell s.mem .txbuf 1 = .ok fc := readCell_of_read (by decide) hfc
  simp only [predict, hr, Access.bind_ok, if_pos ((hasQuantity_iff _).2 hq)]

theorem predict_of_unwritten {s : State} {fc : Byte} (hfc : s.cell .txbuf 1 = some fc)
    (hq : s.familyOf fc = .bitRead ∨ s.familyOf fc = .registerRead)
    (h : ¬s.written .txbuf 4 ∨ ¬s.written .txbuf 5) : predict s = .refused .unwrittenCell := by
  rw [predict_of_quantity hfc hq]
  obtain h4 | ⟨v, h4, h5⟩ := readCell_refused_of_unwritten (by decide) (by decide) h
  · rw [h4, Access.bind_refused]
  · rw [h4, Access.bind_ok, h5, Access.bind_refused]

/-- `SEQ.PREDICT` and `SEQ.XCHG` begin alike (42_sequencer R173, R175). -/
theorem exec_eq_withPrediction {i : Instr} {s : State} (hi : i = .seqPredict ∨ i = .seqXchg) (hidle : s.st = .idle) :
    ∃ k, exec i s = withPrediction s k := by
  obtain rfl | rfl := hi <;> exact ⟨_, whenIdle_of_idle hidle _⟩

theorem target_of_unwritten {s : State} (h : ¬s.written .txbuf 1 ∨ ¬s.written .rxbuf 1) :
    target s = .refused .unwrittenCell := by
  unfold target
  obtain hf | ⟨v, hf, hr⟩ := readCell_refused_of_unwritten (by decide) (by decide) h
  · rw [hf, Access.bind_refused]
  · rw [hf, Access.bind_ok, hr, Access.bind_refused]

theorem takeByte_eq {s : State} (h : s.rxlen.toNat < 256) (b : Byte) (k : State → Result) :
    takeByte b s k = k (s.received b) := by
  rw [takeByte, writeCell_ok (b := .rxbuf) h, Access.andThen_ok]
  rfl

/-- A received byte fills only its own cell. -/
theorem State.written_received_iff {s : State} {b : Buf} {i : Nat} (c : Byte)
    (h : b.addr i ≠ Buf.rxbuf.addr s.rxlen.toNat) : (s.received c).written b i ↔ s.written b i := by
  simp only [State.written, State.received, Memory.read_write_other h]

theorem rxByte_of_unwritten {s : State} (b : Byte) (hst : s.st = .readMin) (hlen : s.rxlen = 3)
    (h : ¬s.written .txbuf 1 ∨ ¬s.written .rxbuf 1) : onEvent (.rxByte b) s = .refused .unwrittenCell := by
  have hlt : s.rxlen.toNat < 256 := by simp [hlen]
  have hu : ¬(s.received b).written .txbuf 1 ∨ ¬(s.received b).written .rxbuf 1 := by
    rwa [State.written_received_iff b (by rw [hlen]; decide), State.written_received_iff b (by rw [hlen]; decide)]
  have h4 : (s.received b).rxlen = BitVec.ofNat 16 config.minAdu := by simp [State.received, hlen]
  simp only [onEvent, onRxByte, hst, rxByteInReadMin, takeByte_eq hlt, if_pos h4, target_of_unwritten hu,
    Access.andThen_refused]

/-- Settles O41: each command and event, past its earlier tests, comes to a read that is refused. -/
theorem unwrittenCellsAreRefused : Obligations.UnwrittenCellsAreRefused := by
  refine ⟨fun s hidle hn hu => ?encode, fun s => frmDecode_of_unwritten, fun s hidle h4 h1 hu => ?verify,
    fun i s hi hidle h2 h256 hu => ?code, fun i s fc hi hidle h6 h256 hfc hq hu => ?quantity,
    fun s b i hi hu => hostRd_of_unwritten hi (State.cell_eq_none_iff.2 hu), fun s hst hlt hu => ?txAccept,
    fun s b => rxByte_of_unwritten b⟩
  case encode =>
    rw [frmEncode_of_le hidle hn, readCells_of_unwritten hn hu, Access.andThen_refused]
  case verify =>
    rw [frmVerify_of_lengths hidle h4 h1]
    obtain hr | ⟨r, hr, hq⟩ := readCell_refused_of_unwritten (by decide) (by decide) hu
    · rw [hr, Access.andThen_refused]
    · rw [hr, Access.andThen_ok, hq, Access.andThen_refused]
  case code =>
    obtain ⟨k, hk⟩ := exec_eq_withPrediction hi hidle
    rw [hk, withPrediction, reqCheck_of_unwritten h2 h256 hu, Access.andThen_refused]
  case quantity =>
    obtain ⟨k, hk⟩ := exec_eq_withPrediction hi hidle
    rw [hk, withPrediction, reqCheck_of_code (by omega) h256 hfc, if_neg (by omega), Access.andThen_ok]
    dsimp only
    rw [predict_of_unwritten hfc hq hu, Access.andThen_refused]
  case txAccept =>
    rw [onEvent, onTxAccept, if_pos hst, readCell_of_unwritten hlt (State.cell_eq_none_iff.2 hu),
      Access.andThen_refused]

end Sys2Proof.Machine
end

section
/-! Proofs about 30_encoding: the command word's opcode map (R91 to R95), the host transaction (R101), and the default
`FC_TABLE` (R98). -/

namespace Sys2Proof

/-! ## The rows of the opcode map -/

theorem CommandRow.accepts_iff (r : CommandRow) (v : Word) : r.accepts v = true ↔ v &&& r.mask = r.value :=
  decide_eq_true_iff

/-- A word that two rows accept, masked by both masks, is the value of either row under the other's mask. -/
theorem CommandRow.value_and_mask_of_accepts {r r' : CommandRow} {v : Word} (h : r.accepts v = true)
    (h' : r'.accepts v = true) : r.value &&& r'.mask = r'.value &&& r.mask := by
  rw [← (r.accepts_iff v).1 h, ← (r'.accepts_iff v).1 h', BitVec.and_assoc, BitVec.and_assoc,
    BitVec.and_comm r.mask]

/-- No two rows of the opcode map agree on the bits both look at (30_encoding R92). -/
theorem row_eq_of_value_and_mask_eq : ∀ r ∈ commandRows, ∀ r' ∈ commandRows,
    r.value &&& r'.mask = r'.value &&& r.mask → r = r' := by
  decide

theorem pushWord_imm8 {v : Word} (h : v.toNat / 256 = 0x11) : 0x000011#24 ++ v.extractLsb' 0 8 = v := by
  apply BitVec.eq_of_toNat_eq
  rw [toNat_pushWord, BitVec.extractLsb'_toNat, Nat.shiftRight_zero]
  omega

/-- A row that accepts a word names the command that encodes to the word (30_encoding R93, R94). -/
theorem encodeCommand_of_accepts {r : CommandRow} {v : Word} (hr : r ∈ commandRows) (h : r.accepts v = true) :
    encodeCommand (r.op.toInstr v) = some v := by
  rw [r.accepts_iff] at h
  by_cases hm : r.mask = 0xFFFFFFFF#32
  · obtain rfl : v = r.value := by rwa [hm, and_mask_all] at h
    clear h hm
    revert r
    decide
  · obtain rfl : r = ⟨.crcPush, 0x00001100, 0xFFFFFF00⟩ := by
      clear h
      revert r
      decide
    exact congrArg some (pushWord_imm8 ((and_mask_push v).1 h))

/-- A command word is the word of the command it decodes to. -/
theorem encodeCommand_of_decodeCommand {v : Word} {i : Instr} (h : decodeCommand v = some i) :
    encodeCommand i = some v := by
  obtain ⟨r, hr, rfl⟩ := Option.map_eq_some_iff.1 h
  exact encodeCommand_of_accepts (List.mem_of_find?_eq_some hr) (List.find?_some (p := (CommandRow.accepts · v)) hr)

/-! ## The host transaction -/

theorem Transaction.exists_make (t : Transaction) : ∃ we idx v, t = Transaction.make we idx v :=
  ⟨_, _, _, (Transaction.make_fields t).symm⟩

/-- A write transaction is the one its instruction encodes to: a command through its word, any other as it stands. -/
theorem encode_decodeTransaction_write (idx : Index) (v : Word) :
    encode (decodeTransaction (Transaction.make true idx v)) = Transaction.make true idx v := by
  rw [decodeTransaction_write]
  split
  next hidx =>
    subst hidx
    cases hd : decodeCommand v with
    | none => rfl
    | some i => exact encode_of_encodeCommand (encodeCommand_of_decodeCommand hd)
  next => rfl

theorem encode_decodeTransaction_read (idx : Index) (v : Word) :
    encode (decodeTransaction (Transaction.make false idx v)) = Transaction.make false idx 0 := by
  rw [decodeTransaction_read]
  split
  next hidx => rw [hidx]; rfl
  next => rfl

/-- Settles O1, by the round trip of each instruction (`decodeTransaction_encode`). -/
theorem decodeOfEncodeIsTheInstruction : Obligations.DecodeOfEncodeIsTheInstruction :=
  fun _ => decodeTransaction_encode

/-- Settles O2: a transaction is its three fields, and each direction keeps those that are driven. -/
theorem encodeOfDecodeKeepsTheTransaction : Obligations.EncodeOfDecodeKeepsTheTransaction := by
  refine ⟨fun t hwe => ?write, fun t hwe => ?read⟩ <;>
    obtain ⟨we, idx, v, rfl⟩ := Transaction.exists_make t <;>
    rw [Transaction.we_make] at hwe
  case write => rw [hwe, encode_decodeTransaction_write]
  case read => rw [hwe, encode_decodeTransaction_read, Transaction.idx_make]

/-- Settles O3: the fields by `isSome_decodeCommand`; two rows that accept one word agree on the bits both look at, and
only a row and itself do. -/
theorem commandWordsAreTheLegalFields : Obligations.CommandWordsAreTheLegalFields :=
  ⟨isSome_decodeCommand, fun _ r r' hr hr' h h' =>
    row_eq_of_value_and_mask_eq r hr r' hr' (CommandRow.value_and_mask_of_accepts h h')⟩

/-- Settles O4: the decoder run on the nine words. -/
theorem wordsOfTheSpecDecode : Obligations.WordsOfTheSpecDecode := by
  unfold Obligations.WordsOfTheSpecDecode
  decide

namespace Machine

/-! ## The table of function codes -/

/-- A code that no row lists is unknown (42_sequencer R171). -/
theorem familyIn_of_unlisted {table : List FcRow} {fc : Byte} (h : ∀ r ∈ table, r.code ≠ fc) :
    familyIn table fc = .unknown := by
  induction table with
  | nil => rfl
  | cons r rest ih =>
    obtain ⟨hr, hrest⟩ := List.forall_mem_cons.1 h
    rw [familyIn, if_neg hr, ih hrest]

/-- Settles O18: the ten listed codes are looked up, and a code that is none of them is unlisted. -/
theorem functionCodeFamilies : Obligations.FunctionCodeFamilies := by
  refine ⟨rfl, fun s fc h => ?_⟩
  rw [State.familyOf, h]
  split_ifs with hbit hreg hecho hmask
  · obtain rfl | rfl := hbit <;> rfl
  · obtain rfl | rfl | rfl := hreg <;> rfl
  · obtain rfl | rfl | rfl | rfl := hecho <;> rfl
  · subst hmask; rfl
  · apply familyIn_of_unlisted
    simp_all [Config.defaultFcTable, eq_comm (b := fc)]

/-! ## The command register -/

/-- A command is refused while an exchange runs (70_reset R265). -/
theorem exec_command_of_busy {i : Instr} {s : State} (hc : isCommand i = true) (hbusy : s.st ≠ .idle) :
    exec i s = .refused .hostWriteWhileBusy := by
  cases i with
  | hostRd | hostWr | crcValue => cases hc
  | _ => exact whenIdle_of_busy hbusy _

/-- Settles O38: in `IDLE` it is a clause of O37; while busy the write and the command are refused alike. -/
theorem writeToCmdRunsTheCommand : Obligations.WriteToCmdRunsTheCommand := by
  intro s v i hd
  obtain ⟨-, hidle⟩ := hostWriteFollowsItsTarget s v
  by_cases hst : s.st = .idle
  · exact (hidle hst).1 i hd
  · rw [hostWr_of_busy hst, exec_command_of_busy (isCommand_of_decodeCommand hd) hst]

/-- Settles O39: the effect is a clause of O37; the five words of R95 are run through the decoder. -/
theorem illegalCommandWordsSetErrSix : Obligations.IllegalCommandWordsSetErrSix := by
  refine ⟨fun s v hidle hd => ?illegal, rfl, by decide⟩
  case illegal =>
    obtain ⟨-, hwrite⟩ := hostWriteFollowsItsTarget s v
    obtain ⟨-, hillegal, -⟩ := hwrite hidle
    exact hillegal hd

end Machine

end Sys2Proof
end

section
/-! Proofs about 40_crc: `crc_step` as eight shifts, each linear and injective (R121, R126), the checksum of a byte
sequence (R122), and the three instructions of the unit (R123 to R125). -/

namespace Sys2Proof.Machine

/-! ## One shift of the accumulator -/

theorem crcShift_of_even {c : Half} (h : c.getLsbD 0 = false) : crcShift c = c >>> 1 := if_neg (Bool.eq_false_iff.1 h)

theorem crcShift_of_odd {c : Half} (h : c.getLsbD 0 = true) : crcShift c = (c >>> 1) ^^^ 0xA001 := if_pos h

/-- The constant comes in by a XOR, once for each accumulator whose bit 0 is 1, and twice it cancels. -/
theorem crcShift_xor (c d : Half) : crcShift (c ^^^ d) = crcShift c ^^^ crcShift d := by
  have hbit : (c ^^^ d).getLsbD 0 = (c.getLsbD 0 ^^ d.getLsbD 0) := BitVec.getLsbD_xor
  have hshift : (c ^^^ d) >>> 1 = (c >>> 1) ^^^ (d >>> 1) := BitVec.ushiftRight_xor_distrib c d 1
  cases hc : c.getLsbD 0 <;> cases hd : d.getLsbD 0 <;> rw [hc, hd] at hbit
  · rw [crcShift_of_even hbit, crcShift_of_even hc, crcShift_of_even hd, hshift]
  · rw [crcShift_of_odd hbit, crcShift_of_even hc, crcShift_of_odd hd, hshift, BitVec.xor_assoc]
  · rw [crcShift_of_odd hbit, crcShift_of_odd hc, crcShift_of_even hd, hshift]
    ac_rfl
  · rw [crcShift_of_even hbit, crcShift_of_odd hc, crcShift_of_odd hd, hshift]
    simp [BitVec.xor_assoc, BitVec.xor_comm 0xA001#16]

/-- A right shift leaves bit 15 clear and the constant has it set, so bit 15 tells which bit was shifted out. -/
theorem getLsbD_crcShift_last (c : Half) : (crcShift c).getLsbD 15 = c.getLsbD 0 := by
  cases h : c.getLsbD 0
  · rw [crcShift_of_even h]; simp
  · rw [crcShift_of_odd h]; simp

theorem eq_zero_of_crcShift {c : Half} (h : crcShift c = 0) : c = 0 := by
  have heven : c.getLsbD 0 = false := by rw [← getLsbD_crcShift_last, h]; rfl
  rw [crcShift_of_even heven] at h
  ext i hi
  cases i with
  | zero => simpa using heven
  | succ i => simpa [BitVec.getLsbD_eq_getElem hi, Nat.add_comm] using congrArg (·.getLsbD i) h

theorem crcShift_injective : Function.Injective crcShift := by
  intro c d h
  have hdiff : crcShift (c ^^^ d) = 0 := by rw [crcShift_xor, h]; exact BitVec.xor_self
  exact BitVec.xor_eq_zero_iff.1 (eq_zero_of_crcShift hdiff)

/-! ## Eight shifts -/

theorem crcShifts_eq_iterate (n : Nat) : crcShifts n = crcShift^[n] := by
  induction n with
  | zero => rfl
  | succ n ih => funext c; rw [crcShifts, ih, Function.iterate_succ_apply]

theorem crcShifts_xor (n : Nat) (c d : Half) : crcShifts n (c ^^^ d) = crcShifts n c ^^^ crcShifts n d := by
  rw [crcShifts_eq_iterate]
  exact Function.Semiconj₂.iterate (op := (· ^^^ ·)) crcShift_xor n c d

theorem crcShifts_injective (n : Nat) : Function.Injective (crcShifts n) := by
  rw [crcShifts_eq_iterate]
  exact crcShift_injective.iterate n

/-- Zeros are shifted out without the constant coming in. -/
theorem crcShifts_of_low_zero {n : Nat} {c : Half} (h : ∀ i < n, c.getLsbD i = false) : crcShifts n c = c >>> n := by
  induction n generalizing c with
  | zero => simp [crcShifts]
  | succ n ih =>
    have hrest : ∀ i < n, (c >>> 1).getLsbD i = false := fun i hi => by
      rw [BitVec.getLsbD_ushiftRight]; exact h _ (by omega)
    rw [crcShifts, crcShift_of_even (h 0 n.succ_pos), ih hrest, ← BitVec.shiftRight_add, Nat.add_comm]

/-! ## A byte into the accumulator -/

theorem crcStep_injective (b : Byte) : Function.Injective fun c : Half => crcStep c b := fun c d h => by
  have hin : c ^^^ b.setWidth 16 = d ^^^ b.setWidth 16 := crcShifts_injective 8 h
  exact (BitVec.xor_left_inj _).1 hin

/-- The accumulator's own low byte cancels it, so the eight shifts only move its high byte down. -/
theorem crcStep_lo8 (c : Half) : crcStep c (lo8 c) = (hi8 c).setWidth 16 := by
  have hlow : ∀ i < 8, (c ^^^ (lo8 c).setWidth 16).getLsbD i = false := fun i hi => by
    simp [lo8, hi, show i < 16 by omega]
  have hhigh : ∀ i, c.getLsbD (8 + i) = true → i < 8 := fun i h => by
    have := BitVec.lt_of_getLsbD h
    omega
  rw [crcStep, crcShifts_of_low_zero hlow]
  ext i hi
  simpa [lo8, hi8] using hhigh i

/-- A byte cancels an accumulator that holds just this byte, and zero shifts to zero. -/
theorem crcStep_setWidth_self (b : Byte) : crcStep (b.setWidth 16) b = 0 := by
  rw [crcStep, BitVec.xor_self]
  rfl

/-- Settles O8: the eight shifts are the iterate that a fold over `List.range 8` is. -/
theorem crcStepIsEightShifts : Obligations.CrcStepIsEightShifts := fun c b => by
  rw [crcStep, crcShifts_eq_iterate]
  exact (List.foldl_const crcShift _ (List.range 8)).symm

/-- Settles O10: the shifts are linear, so one operand may take the byte; they are injective, and so is the XOR with the
byte before them, and the accumulator has finitely many values. -/
theorem crcStepIsALinearBijection : Obligations.CrcStepIsALinearBijection := by
  refine ⟨fun c d b => ?linear, fun b => Finite.injective_iff_bijective.1 (crcStep_injective b)⟩
  case linear =>
    calc crcStep (c ^^^ d) b = crcShifts 8 ((c ^^^ b.setWidth 16) ^^^ d) := by
          rw [crcStep, BitVec.xor_assoc, BitVec.xor_comm d, BitVec.xor_assoc]
      _ = crcStep c b ^^^ crcShifts 8 d := crcShifts_xor 8 _ _
      _ = crcStep c b ^^^ crcStep d 0 := by simp [crcStep]

/-! ## The checksum of a byte sequence -/

theorem crc16_append (l l' : List Byte) : crc16 (l ++ l') = crcFrom (crc16 l) l' := List.foldl_append

/-- Settles O9: the start value is the constant, and one more byte is one more step of the fold. -/
theorem checksumStepsThroughTheBytes : Obligations.ChecksumStepsThroughTheBytes :=
  ⟨config_crcInit, fun l b => crc16_append l [b]⟩

/-- The low byte leaves the high byte in the accumulator, and the high byte cancels that. -/
theorem crcFrom_lo8_hi8 (c : Half) : crcFrom c [lo8 c, hi8 c] = 0 :=
  calc crcFrom c [lo8 c, hi8 c] = crcStep (crcStep c (lo8 c)) (hi8 c) := rfl
    _ = crcStep ((hi8 c).setWidth 16) (hi8 c) := by rw [crcStep_lo8]
    _ = 0 := crcStep_setWidth_self _

/-- Settles O11: the two appended bytes are those of the accumulator they meet. -/
theorem crcResidueIsZero : Obligations.CrcResidueIsZero := fun l =>
  (crc16_append l _).trans (crcFrom_lo8_hi8 (crc16 l))

/-- Settles O12: the checksum run on the five sequences. -/
theorem crcCheckValues : Obligations.CrcCheckValues := by
  unfold Obligations.CrcCheckValues
  decide +kernel

/-! ## The instructions of the unit -/

/-- Settles O5: the word is the one `CRC.RESET` encodes to, and in `IDLE` the guard lets the command through. -/
theorem crcResetLoadsTheStartValue : Obligations.CrcResetLoadsTheStartValue :=
  ⟨decodeCommand_of_encodeCommand rfl, fun _ hidle => whenIdle_of_idle hidle _⟩

/-- Settles O6: the word by `decodeCommand_pushWord`; in `IDLE` the guard lets the command through. -/
theorem crcPushStepsTheAccumulator : Obligations.CrcPushStepsTheAccumulator :=
  ⟨decodeCommand_pushWord, fun _ _ hidle => whenIdle_of_idle hidle _⟩

/-- Settles O7: the read of index 0x003 decodes to `CRC.VALUE`, which has no guard, and index 0x003 names `CRC`. -/
theorem crcValueReturnsTheAccumulator : Obligations.CrcValueReturnsTheAccumulator :=
  ⟨decodeTransaction_read 0x003 0, fun s => ⟨rfl, hostRd_of_reg (r := .crc) rfl s⟩⟩

end Sys2Proof.Machine
end

section
/-! Proofs about 41_framer: what `FRM.ENCODE` and `FRM.DECODE` do to a PDU and a frame whose cells are written (R141,
R142), that the two are inverse (R144), and the comparison of `FRM.VERIFY` (R143). -/

namespace Sys2Proof.Machine

/-! ## Cells in a row, from a buffer's first cell -/

theorem State.holds.readCells {s : State} {b : Buf} {l : List Byte} (hfit : l.length ≤ b.size) (h : s.holds b l) :
    readCells s.mem b 0 l.length = .ok l :=
  readCells_of_reads l 0 (by omega) fun k hk => by simpa using h k hk

theorem holds_of_readCells {s : State} {b : Buf} {n : Nat} {l : List Byte} (hn : n ≤ b.size)
    (h : readCells s.mem b 0 n = .ok l) : l.length = n ∧ s.holds b l := by
  obtain ⟨l', hlen, hr, hl⟩ | ⟨-, hr⟩ := readCells_cases s.mem b 0 n (by omega) <;> rw [hr] at h <;> cases h
  exact ⟨hlen, fun k hk => by simpa using hl k hk⟩

theorem exists_writeCells_stored (s : State) {b : Buf} {l : List Byte} (hfit : l.length ≤ b.size) :
    ∃ m, writeCells s.mem b 0 l = .ok m ∧ s.stored b 0 l m := by
  obtain ⟨m, hw, hin, hout, -⟩ := writeCells_spec s.mem b 0 l (by omega)
  exact ⟨m, hw, hin, hout⟩

theorem State.stored.read {s : State} {b : Buf} {l : List Byte} {m : Memory} (h : s.stored b 0 l m) {k : Nat}
    (hk : k < l.length) : Memory.read m (b.addr k) = some l[k] := by
  simpa using h.1 k hk

/-- The buffers do not overlap, so storing inside one leaves the others' cells. -/
theorem State.stored.read_other {s : State} {b b' : Buf} {l : List Byte} {m : Memory} (h : s.stored b 0 l m)
    (hfit : l.length ≤ b.size) (hb : b' ≠ b) {k : Nat} (hk : k < b'.size) :
    Memory.read m (b'.addr k) = s.cell b' k := by
  refine h.2 _ ?_
  by_contra hin
  rw [Buf.addr_add] at hin
  have hcell : b'.addr k = b.addr (b'.addr k - b.addr 0) := by simp only [Buf.addr] at hin ⊢; omega
  exact hb (Buf.addr_inj hk (by omega) hcell).1

/-! ## The parts of a frame -/

theorem eq_frame_of_length {f : List Byte} (h : 4 ≤ f.length) : ∃ a fc d lo hi, f = a :: fc :: (d ++ [lo, hi]) := by
  match f, h with
  | a :: fc :: l, h =>
    have hlen : (l.drop (l.length - 2)).length = 2 := by simp at h ⊢; omega
    obtain ⟨lo, hi, htail⟩ := List.length_eq_two.1 hlen
    exact ⟨a, fc, l.take (l.length - 2), lo, hi, by rw [← htail, List.take_append_drop]⟩

/-! ## `FRM.ENCODE` -/

theorem frmEncode_of_holds {s : State} {d : List Byte} (hidle : s.st = .idle) (hlen : d.length = s.plen.toNat)
    (hmax : d.length ≤ 252) (hd : s.holds .pdat d) :
    ∃ m, exec .frmEncode s =
        .next { s with
          crc := crc16 (s.uaddr :: s.ufc :: d), mem := m, txlen := BitVec.ofNat 16 (d.length + 4), err := .none } ∧
      s.stored .txbuf 0 (frameOf s.uaddr s.ufc d) m := by
  have hfit : (frameOf s.uaddr s.ufc d).length ≤ Buf.txbuf.size := by
    rw [frameOf_length]
    exact Nat.add_le_add_right hmax 4
  obtain ⟨m, hw, hm⟩ := exists_writeCells_stored s hfit
  refine ⟨m, ?_, hm⟩
  rw [frmEncode_of_le hidle (hlen ▸ hmax), ← hlen, hd.readCells hmax, Access.andThen_ok, hw, Access.andThen_ok]

theorem frmEncode_of_gt {s : State} (hidle : s.st = .idle) (h : 252 < s.plen.toNat) :
    exec .frmEncode s = .next { s with err := .frameTooLong } :=
  (whenIdle_of_idle hidle _).trans (if_pos (show s.plen.toNat + 4 > 256 by omega))

/-- Settles O14: the reads answer the held data, and the frame fits `TXBUF`. -/
theorem frmEncodeBuildsTheFrame : Obligations.FrmEncodeBuildsTheFrame :=
  ⟨decodeCommand_of_encodeCommand rfl, fun _ hidle =>
    ⟨fun _ hlen hmax hd => frmEncode_of_holds hidle hlen hmax hd, frmEncode_of_gt hidle⟩⟩

/-! ## `FRM.DECODE` -/

/-- Past its length tests `FRM.DECODE` takes a received frame apart into its fields (41_framer R142). -/
theorem frmDecode_of_holds {s : State} {a fc lo hi : Byte} {d : List Byte} (hidle : s.st = .idle)
    (hlen : d.length + 4 = s.rxlen.toNat) (hmax : d.length + 4 ≤ 256)
    (hf : s.holds .rxbuf (a :: fc :: (d ++ [lo, hi]))) :
    exec .frmDecode s =
      if lo ≠ lo8 (crc16 (a :: fc :: d)) ∨ hi ≠ hi8 (crc16 (a :: fc :: d)) then
        .next { s with crc := crc16 (a :: fc :: d), err := .crcMismatch }
      else (writeCells s.mem .pdat 0 d).andThen fun m =>
        .next { s with
          crc := crc16 (a :: fc :: d), uaddr := a, ufc := fc, mem := m, plen := BitVec.ofNat 16 d.length,
          err := .none } := by
  have hfit : (a :: fc :: (d ++ [lo, hi])).length ≤ 256 := by simp; omega
  have hread : readCells s.mem .rxbuf 0 (d.length + 4) = .ok (a :: fc :: (d ++ [lo, hi])) := by
    simpa using hf.readCells hfit
  have hshort : ¬d.length + 4 < 4 := by omega
  have hlong : ¬d.length + 4 > 256 := by omega
  simp [exec, execFrmDecode, whenIdle_of_idle hidle, ← hlen, hshort, hlong, hread, byteAt, raise_eq, succeed_eq]

theorem frmDecode_of_lt {s : State} (hidle : s.st = .idle) (h : s.rxlen.toNat < 4) :
    exec .frmDecode s = .next { s with err := .frameTooShort } :=
  (whenIdle_of_idle hidle _).trans (if_pos h)

theorem frmDecode_of_gt {s : State} (hidle : s.st = .idle) (h : 256 < s.rxlen.toNat) :
    exec .frmDecode s = .next { s with err := .frameTooLong } :=
  (whenIdle_of_idle hidle _).trans ((if_neg (show ¬s.rxlen.toNat < 4 by omega)).trans (if_pos h))

theorem frmDecode_of_frameOf {s : State} {a fc : Byte} {d : List Byte} (hidle : s.st = .idle)
    (hlen : d.length + 4 = s.rxlen.toNat) (hmax : d.length + 4 ≤ 256) (hf : s.holds .rxbuf (frameOf a fc d)) :
    ∃ m, exec .frmDecode s =
        .next { s with
          crc := crc16 (a :: fc :: d), uaddr := a, ufc := fc, plen := BitVec.ofNat 16 d.length, mem := m,
          err := .none } ∧
      s.stored .pdat 0 d m := by
  obtain ⟨m, hw, hm⟩ := exists_writeCells_stored s (b := .pdat) (Nat.le_of_add_le_add_right hmax)
  refine ⟨m, ?_, hm⟩
  rw [frmDecode_of_holds hidle hlen hmax hf, if_neg (by simp), hw, Access.andThen_ok]

/-- Settles O15: the tests in order; past them, the two last bytes of the frame decide. -/
theorem frmDecodeChecksAndUnwraps : Obligations.FrmDecodeChecksAndUnwraps := by
  refine ⟨decodeCommand_of_encodeCommand rfl, fun s hidle => ⟨frmDecode_of_lt hidle, frmDecode_of_gt hidle,
    fun a fc d lo hi hlen hmax hf => ⟨fun hbad => ?mismatch, fun hlo hhi => ?agree⟩⟩⟩
  case mismatch => rw [frmDecode_of_holds hidle hlen hmax hf, if_pos (not_and_or.1 hbad)]
  case agree =>
    subst hlo hhi
    exact frmDecode_of_frameOf hidle hlen hmax hf

/-! ## What a command that ended without an error found -/

theorem frmEncode_err_none {s t : State} (h : exec .frmEncode s = .next t) (ht : t.err = .none) :
    s.st = .idle ∧ s.plen.toNat ≤ 252 ∧ ∃ d, d.length = s.plen.toNat ∧ s.holds .pdat d := by
  obtain ⟨hidle, ⟨-, rfl⟩ | ⟨hn, d, -, hd, -, -⟩⟩ := frmEncode_next h
  · cases ht
  · exact ⟨hidle, hn, d, holds_of_readCells hn hd⟩

theorem frmDecode_err_none {s t : State} (h : exec .frmDecode s = .next t) (ht : t.err = .none) :
    s.st = .idle ∧ s.rxlen.toNat ≤ 256 ∧
      ∃ a fc d, d.length + 4 = s.rxlen.toNat ∧ s.holds .rxbuf (frameOf a fc d) := by
  obtain ⟨hidle, ⟨-, rfl⟩ | ⟨-, rfl⟩ | ⟨h4, hmax, f, hf, -⟩⟩ := frmDecode_next h
  · cases ht
  · cases ht
  · obtain ⟨hlen, hholds⟩ := holds_of_readCells hmax hf
    obtain ⟨a, fc, d, lo, hi, rfl⟩ := eq_frame_of_length (hlen ▸ h4)
    have hd : d.length + 4 = s.rxlen.toNat := by simpa using hlen
    rw [frmDecode_of_holds hidle hd (hd ▸ hmax) hholds] at h
    split at h
    · cases h; cases ht
    next hgood =>
      obtain ⟨rfl, rfl⟩ : lo = _ ∧ hi = _ := by simpa using hgood
      exact ⟨hidle, hmax, a, fc, d, hd, hholds⟩

/-! ## The round trip -/

/-- Decoding leaves `RXBUF`, and encoding what it returned builds the same frame again. -/
theorem frmEncode_of_frmDecode {s t : State} (h : exec .frmDecode s = .next t) (ht : t.err = .none) :
    ∃ u, exec .frmEncode t = .next u ∧ u.err = .none ∧ u.txlen = s.rxlen ∧
      ∀ k, k < s.rxlen.toNat → u.cell .txbuf k = u.cell .rxbuf k := by
  obtain ⟨hidle, hmax, a, fc, d, hd, hf⟩ := frmDecode_err_none h ht
  have hd252 : d.length ≤ 252 := by omega
  obtain ⟨m, hdec, hpdat⟩ := frmDecode_of_frameOf hidle hd (hd ▸ hmax) hf
  have build := frmEncode_of_holds (s := t) (d := d)
  rw [hdec] at h
  cases h
  have hplen : d.length = (BitVec.ofNat 16 d.length).toNat := by rw [BitVec.toNat_ofNat]; omega
  obtain ⟨m', henc, htx⟩ := build hidle hplen hd252 fun k hk => hpdat.read hk
  refine ⟨_, henc, rfl, by simp [hd], fun k hk => ?_⟩
  have hkf : k < (frameOf a fc d).length := by rwa [frameOf_length, hd]
  have hk256 : k < Buf.rxbuf.size := hk.trans_le hmax
  calc Memory.read m' (Buf.txbuf.addr k) = some (frameOf a fc d)[k] := htx.read hkf
    _ = s.cell .rxbuf k := (hf k hkf).symm
    _ = Memory.read m (Buf.rxbuf.addr k) := (hpdat.read_other hd252 (by decide) hk256).symm
    _ = Memory.read m' (Buf.rxbuf.addr k) :=
      (htx.read_other (by rw [frameOf_length, hd]; exact hmax) (by decide) hk256).symm

/-- A copy of the encoded frame decodes to the PDU it was built from. -/
theorem frmDecode_of_frmEncode {s t v : State} (h : exec .frmEncode s = .next t) (ht : t.err = .none)
    (hidle : v.st = .idle) (hlen : v.rxlen = t.txlen)
    (hcopy : ∀ k, k < t.txlen.toNat → v.cell .rxbuf k = t.cell .txbuf k) :
    ∃ w, exec .frmDecode v = .next w ∧ w.err = .none ∧ w.uaddr = s.uaddr ∧ w.ufc = s.ufc ∧ w.plen = s.plen ∧
      ∀ k, k < s.plen.toNat → w.cell .pdat k = s.cell .pdat k := by
  obtain ⟨hs, hmax, d, hd, hpdat⟩ := frmEncode_err_none h ht
  obtain ⟨m, henc, htx⟩ := frmEncode_of_holds hs hd (hd ▸ hmax) hpdat
  rw [henc] at h
  cases h
  have htxlen : d.length + 4 = (BitVec.ofNat 16 (d.length + 4)).toNat := by rw [BitVec.toNat_ofNat]; omega
  have hframe : v.holds .rxbuf (frameOf s.uaddr s.ufc d) := fun k hk =>
    (hcopy k (by rwa [frameOf_length, htxlen] at hk)).trans (htx.read hk)
  obtain ⟨m', hdec, hstored⟩ := frmDecode_of_frameOf hidle (by rw [hlen]; exact htxlen) (by omega) hframe
  refine ⟨_, hdec, rfl, rfl, rfl, by simp [hd], fun k hk => ?_⟩
  have hkd : k < d.length := by rwa [hd]
  exact (hstored.read hkd).trans (hpdat k hkd).symm

/-- Settles O17: both directions turn on the frame being the PDU with its own checksum. -/
theorem encodeAndDecodeAreInverse : Obligations.EncodeAndDecodeAreInverse :=
  ⟨fun _ _ => frmEncode_of_frmDecode, fun _ _ _ => frmDecode_of_frmEncode⟩

/-! ## `FRM.VERIFY` -/

/-- Settles O16: the two length tests in order, then the comparison of the two bytes read. -/
theorem frmVerifyComparesAddresses : Obligations.FrmVerifyComparesAddresses := by
  refine ⟨decodeCommand_of_encodeCommand rfl, fun s hidle => ⟨fun h4 => ?rxShort, fun h4 h1 => ?txShort,
    fun r q h4 h1 hr hq => ?compare⟩⟩
  case rxShort => exact (whenIdle_of_idle hidle _).trans (if_pos h4)
  case txShort => exact (whenIdle_of_idle hidle _).trans ((if_neg (not_lt.2 h4)).trans (if_pos h1))
  case compare =>
    rw [frmVerify_of_lengths hidle h4 h1, readCell_of_read (by decide) hr, readCell_of_read (by decide) hq]
    exact ⟨fun hne => if_pos hne, fun heq => if_neg (not_not_intro heq)⟩

end Sys2Proof.Machine
end

section
/-! Proofs about 42_sequencer: the prediction and its commands (R171 to R175, R187), the delays (R176 to R178), each
driver event (R179 to R186) and the transition table (R189), that no legal state faults (R190), and whole phases of an
exchange: the request sent, the wait, the response received. -/

namespace Sys2Proof.Machine

/-! ## The lookup of a function code -/

theorem familyIn_of_mem {table : List FcRow} {r : FcRow} (hd : table.Pairwise fun a b => a.code ≠ b.code)
    (hr : r ∈ table) : familyIn table r.code = r.family := by
  induction table with
  | nil => cases hr
  | cons r' rest ih =>
    obtain ⟨hne, hrest⟩ := List.pairwise_cons.1 hd
    obtain rfl | hr := List.mem_cons.1 hr
    · exact if_pos rfl
    · exact (if_neg (hne r hr)).trans (ih hrest hr)

/-- Settles O56: no row's code equals an unlisted one, and of distinct codes the first match is the only one. -/
theorem familyIsTheTablesLookup : Obligations.FamilyIsTheTablesLookup := by
  refine fun s fc => ⟨familyIn_of_unlisted, fun r hd hr hfc => ?listed⟩
  case listed =>
    subst hfc
    exact familyIn_of_mem hd hr

/-! ## The request check and the prediction -/

/-- A request that passes has no quantity, or the six bytes that hold one (42_sequencer R174). -/
theorem reqCheck_of_requests {s : State} {fc : Byte} {p : Nat} (h : s.requests fc p) : reqCheck s = .ok none := by
  obtain ⟨h2, h256, hfc, hp⟩ := h
  rw [reqCheck_of_code h2 h256 hfc, if_neg]
  rintro ⟨hq, h6⟩
  obtain ⟨-, h6', -⟩ | ⟨-, h6', -⟩ | ⟨hf, -⟩ | ⟨hf, -⟩ | ⟨hf, -⟩ := hp
  · omega
  · omega
  all_goals simp [hf] at hq

theorem predict_of_cells {s : State} {fc hi lo : Byte} (hfc : s.cell .txbuf 1 = some fc)
    (hq : s.familyOf fc = .bitRead ∨ s.familyOf fc = .registerRead) (hhi : s.cell .txbuf 4 = some hi)
    (hlo : s.cell .txbuf 5 = some lo) : predict s = .ok (predictedLength (s.familyOf fc) (be16 hi lo)) := by
  rw [predict_of_quantity hfc hq, readCell_of_read (by decide) hhi, Access.bind_ok, readCell_of_read (by decide) hlo,
    Access.bind_ok]

theorem predict_of_no_quantity {s : State} {fc : Byte} (hfc : s.cell .txbuf 1 = some fc)
    (hq : hasQuantity (s.familyOf fc) = false) : predict s = .ok (predictedLength (s.familyOf fc) 0) := by
  have hr : readCell s.mem .txbuf 1 = .ok fc := readCell_of_read (by decide) hfc
  simp [predict, hr, hq]

theorem predict_of_requests {s : State} {fc : Byte} {p : Nat} (h : s.requests fc p) : predict s = .ok p := by
  obtain ⟨-, -, hfc, ⟨hf, -, hi, lo, hhi, hlo, rfl⟩ | ⟨hf, -, hi, lo, hhi, hlo, rfl⟩ | ⟨hf, rfl⟩ | ⟨hf, rfl⟩ |
    ⟨hf, rfl⟩⟩ := h
  · rw [predict_of_cells hfc (.inl hf) hhi hlo, hf]; rfl
  · rw [predict_of_cells hfc (.inr hf) hhi hlo, hf]; rfl
  all_goals rw [predict_of_no_quantity hfc (by rw [hf]; rfl), hf]; rfl

theorem reqCheck_of_rejects {s : State} {e : Err} (h : s.rejects e) : reqCheck s = .ok (some e) := by
  obtain ⟨h256, rfl⟩ | ⟨h2, rfl⟩ | ⟨h2, h6, rfl, fc, hfc, hq⟩ := h
  · exact if_pos h256
  · exact (if_neg (show ¬s.txlen.toNat > 256 by omega)).trans (if_pos h2)
  · rw [reqCheck_of_code h2 (by omega) hfc, if_pos ⟨hq, h6⟩]

theorem withPrediction_of_requests {s : State} {fc : Byte} {p : Nat} (h : s.requests fc p) (k : Nat → Result) :
    withPrediction s k = k p := by
  rw [withPrediction, reqCheck_of_requests h, Access.andThen_ok]
  dsimp only
  rw [predict_of_requests h, Access.andThen_ok]

theorem withPrediction_of_rejects {s : State} {e : Err} (h : s.rejects e) (k : Nat → Result) :
    withPrediction s k = .next { s with err := e } := by
  rw [withPrediction, reqCheck_of_rejects h]
  rfl

/-! ## The commands of the unit -/

theorem seqPredict_of_requests {s : State} {fc : Byte} {p : Nat} (hidle : s.st = .idle) (h : s.requests fc p) :
    exec .seqPredict s = .next { s with pred := BitVec.ofNat 32 p, err := .none } :=
  (whenIdle_of_idle hidle _).trans (withPrediction_of_requests h _)

theorem seqXchg_of_requests {s : State} {fc : Byte} {p : Nat} (hidle : s.st = .idle) (h : s.requests fc p) :
    exec .seqXchg s = .next (s.accepting p) :=
  (whenIdle_of_idle hidle _).trans (withPrediction_of_requests h _)

theorem exec_of_rejects {i : Instr} {s : State} {e : Err} (hi : i = .seqPredict ∨ i = .seqXchg) (hidle : s.st = .idle)
    (h : s.rejects e) : exec i s = .next { s with err := e } := by
  obtain ⟨k, hk⟩ := exec_eq_withPrediction hi hidle
  rw [hk, withPrediction_of_rejects h]

/-- Settles O19: the common beginning passes with the prediction, or raises. -/
theorem seqPredictWritesThePrediction : Obligations.SeqPredictWritesThePrediction :=
  ⟨decodeCommand_of_encodeCommand rfl, fun _ hidle =>
    ⟨fun _ _ h => seqPredict_of_requests hidle h, fun _ h => exec_of_rejects (.inl rfl) hidle h⟩⟩

/-- Settles O20: the three causes of a rejection, and both commands on a request that passes. -/
theorem requestCheckRejects : Obligations.RequestCheckRejects := by
  refine fun i s hi hidle => ⟨fun h256 => ?tooLong, fun h2 => ?tooShort, fun fc h2 h6 hfc hq => ?noQuantity,
    fun fc p h => ?passes⟩
  case tooLong => exact exec_of_rejects hi hidle (.inl ⟨h256, rfl⟩)
  case tooShort => exact exec_of_rejects hi hidle (.inr (.inl ⟨h2, rfl⟩))
  case noQuantity => exact exec_of_rejects hi hidle (.inr (.inr ⟨h2, h6, rfl, fc, hfc, hq⟩))
  case passes =>
    obtain rfl | rfl := hi
    · exact ⟨_, seqPredict_of_requests hidle h, rfl⟩
    · exact ⟨_, seqXchg_of_requests hidle h, rfl⟩

/-- Settles O21: the common beginning passes with the prediction, or raises. -/
theorem seqXchgAccepts : Obligations.SeqXchgAccepts :=
  ⟨decodeCommand_of_encodeCommand rfl, fun _ hidle =>
    ⟨fun _ _ h => seqXchg_of_requests hidle h, fun _ h => exec_of_rejects (.inr rfl) hidle h⟩⟩

/-- Settles O22: past the guard the command is one update. -/
theorem seqCloseClosesTheChannel : Obligations.SeqCloseClosesTheChannel :=
  ⟨decodeCommand_of_encodeCommand rfl, fun _ hidle => ⟨_, whenIdle_of_idle hidle _, rfl, rfl, rfl⟩⟩

/-! ## The delays -/

theorem delays_of_scales {baud : Nat} (h : baudScales baud) :
    charDelay baud = 15000000 / baud ∧ frameDelay baud = 35000000 / baud :=
  ⟨if_pos h, if_pos h⟩

theorem delays_of_not_scales {baud : Nat} (h : ¬baudScales baud) : charDelay baud = 750 ∧ frameDelay baud = 1750 :=
  ⟨if_neg h, if_neg h⟩

/-- Settles O23: the delays by the range of the baud rate, and the two views as the host reads them. -/
theorem delaysFollowTheBaudRate : Obligations.DelaysFollowTheBaudRate := by
  refine ⟨fun baud hpos hmax => delays_of_scales ⟨hpos, hmax⟩, fun baud hout => delays_of_not_scales ?outside,
    fun s => ⟨hostRd_of_reg (r := .chdly) rfl s, hostRd_of_reg (r := .frdly) rfl s⟩⟩
  case outside =>
    rintro ⟨hpos, hmax⟩
    have hmax : baud ≤ 19200 := hmax
    omega

/-- Settles O24: the bounds are those of the two delays (`charDelay_range`, `frameDelay_range`). -/
theorem waitIsBounded : Obligations.WaitIsBounded := by
  refine fun baud chars => ⟨rfl, fun h256 => (waitUs_range h256).2, fun h2 => ?lower⟩
  case lower =>
    have hchars : 750 * 2 ≤ charDelay baud * chars := Nat.mul_le_mul (charDelay_range baud).1 h2
    have hframe := (frameDelay_range baud).1
    unfold waitUs
    omega

/-! ## The driver events, in the states that enable them -/

/-- An event outside the states that enable it changes nothing (00_scope R9, 60_exceptions R249). -/
theorem onEvent_of_not_enabled {e : Event} {s : State} (h : e.enabledIn s.st = false) : onEvent e s = .next s := by
  cases e with
  | rxByte b => cases hq : s.st <;> simp_all [onEvent, onRxByte, Event.enabledIn]
  | openOk => exact if_neg (of_decide_eq_false h)
  | openFail => exact if_neg (of_decide_eq_false h)
  | txAccept => exact if_neg (of_decide_eq_false h)
  | txFail => exact if_neg (of_decide_eq_false h)
  | rxFail => exact if_neg (by simpa [Event.enabledIn] using h)
  | tick => exact if_neg (of_decide_eq_false h)

theorem txAccept_of_send {s : State} (hq : s.st = .send) :
    onEvent .txAccept s =
      (readCell s.mem .txbuf s.txcnt.toNat).andThen fun b =>
        if s.txcnt + 1 = s.txlen then
          .next { s with
            txcnt := s.txcnt + 1, waitcnt := BitVec.ofNat 32 (waitUs s.baud.toNat s.txlen.toNat), st := .wait,
            out := { s.out with txTaken := some b } }
        else .next { s with txcnt := s.txcnt + 1, out := { s.out with txTaken := some b } } :=
  if_pos hq

theorem tick_of_wait {s : State} (hq : s.st = .wait) :
    onEvent .tick s =
      if s.waitcnt - 1 = 0 then .next { s with waitcnt := s.waitcnt - 1, st := .readMin }
      else .next { s with waitcnt := s.waitcnt - 1 } :=
  if_pos hq

/-- `RxByte` in `READ_MIN` (42_sequencer R182): the fourth byte decides the length. -/
theorem rxByte_of_readMin {s : State} (hq : s.st = .readMin) (hlt : s.rxlen.toNat < 256) (b : Byte) :
    onEvent (.rxByte b) s =
      if s.rxlen + 1 = 4 then
        (target (s.received b)).andThen fun n =>
          if n = 4 then .next { s.received b with rxtgt := BitVec.ofNat 16 n, doneBit := true, st := .idle }
          else .next { s.received b with rxtgt := BitVec.ofNat 16 n, st := .readRem }
      else .next (s.received b) := by
  simp only [onEvent, onRxByte, hq, rxByteInReadMin, takeByte_eq hlt]
  rfl

/-- `RxByte` in `READ_REM` (42_sequencer R184): the byte at `RXTGT` completes the exchange. -/
theorem rxByte_of_readRem {s : State} (hq : s.st = .readRem) (hlt : s.rxlen.toNat < 256) (b : Byte) :
    onEvent (.rxByte b) s =
      if s.rxlen + 1 = s.rxtgt then .next { s.received b with doneBit := true, st := .idle }
      else .next (s.received b) := by
  simp only [onEvent, onRxByte, hq, rxByteInReadRem, takeByte_eq hlt]
  rfl

/-- A received byte leaves every other cell. -/
theorem State.cell_received {s : State} {b : Buf} {i : Nat} (c : Byte) (h : b.addr i ≠ Buf.rxbuf.addr s.rxlen.toNat) :
    (s.received c).cell b i = s.cell b i :=
  Memory.read_write_other h _ _

theorem State.stored_received (s : State) (b : Byte) : s.stored .rxbuf s.rxlen.toNat [b] (s.received b).mem :=
  s.stored_write .rxbuf s.rxlen.toNat b

/-- Settles O25: both events are enabled in `CONNECT` only. -/
theorem connectIsAnswered : Obligations.ConnectIsAnswered := by
  refine fun s => ⟨fun hq => ⟨decide_eq_true hq, if_pos hq, if_pos hq⟩, fun hq => ?_⟩
  exact ⟨onEvent_of_not_enabled (decide_eq_false hq), onEvent_of_not_enabled (decide_eq_false hq)⟩

/-- Settles O26: the event reads the cell of the next byte, then compares the count with `TXLEN`. -/
theorem sendHandsOverTheNextByte : Obligations.SendHandsOverTheNextByte := by
  refine fun s hq => ⟨decide_eq_true hq, fun b hlt hb => ⟨?data, fun hne => ?more, fun heq => ?last⟩,
    fun hlt hu => ?unwritten, if_pos hq⟩
  case data => exact (if_pos (decide_eq_true hq)).trans hb
  case more => rw [txAccept_of_send hq, readCell_of_read hlt hb, Access.andThen_ok, if_neg hne]
  case last => rw [txAccept_of_send hq, readCell_of_read hlt hb, Access.andThen_ok, if_pos heq]
  case unwritten =>
    rw [txAccept_of_send hq, readCell_of_unwritten hlt (State.cell_eq_none_iff.2 hu), Access.andThen_refused]

/-- Settles O27: in `WAIT` the count after the tick decides. -/
theorem tickCountsTheWaitDown : Obligations.TickCountsTheWaitDown := by
  refine fun s => ⟨fun hq => ⟨fun hgt => ?more, fun hone => ?last⟩,
    fun hq => onEvent_of_not_enabled (decide_eq_false hq)⟩
  case more => rw [tick_of_wait hq, if_neg (by bv_omega)]
  case last => rw [tick_of_wait hq, hone]; rfl

/-- Settles O28: the three tests of `target()` in order. -/
theorem targetFollowsTheSecondByte : Obligations.TargetFollowsTheSecondByte := by
  refine fun fc r p => ⟨fun hr h4 h256 => ?fits, fun hr hout => ?misfits, fun hne hexc => ?exception,
    fun hne hne' => ?other⟩
  case fits => exact (if_pos hr).trans (if_pos ⟨h4, h256⟩)
  case misfits => exact (if_pos hr).trans (if_neg (show ¬(p > 4 ∧ p ≤ 256) by omega))
  case exception => exact (if_neg hne).trans (if_pos hexc)
  case other => exact (if_neg hne).trans (if_neg hne')

/-- Settles O29: a byte before the fourth is only stored and counted; at the fourth, which overwrites neither second
byte, `target()` decides. -/
theorem readMinTakesFourBytes : Obligations.ReadMinTakesFourBytes := by
  refine fun s b hq => ⟨by simp [rxReady, hq], fun hlt => ⟨_, ?early, s.stored_received b⟩,
    fun fc r hlen hfc hr => ⟨(s.received b).mem, ?stored, fun h4 => ?complete, fun hne => ?goesOn⟩, if_pos (.inl hq)⟩
  case early =>
    rw [rxByte_of_readMin hq (by omega), if_neg (by bv_omega)]
    rfl
  case stored => simpa [hlen] using s.stored_received b
  all_goals
    have hlt : s.rxlen.toNat < 256 := by simp [hlen]
    have htgt : target (s.received b) = .ok (targetOf fc r s.pred.toNat) :=
      target_of_cells ((State.cell_received b (by rw [hlen]; decide)).trans hfc)
        ((State.cell_received b (by rw [hlen]; decide)).trans hr)
    rw [rxByte_of_readMin hq hlt, if_pos (by rw [hlen]; rfl), htgt, Access.andThen_ok]
  case complete =>
    rw [if_pos h4, h4, State.received, hlen]
    rfl
  case goesOn =>
    rw [if_neg hne, State.received, hlen]
    rfl

/-- Settles O30: the count after the byte is compared with `RXTGT`. -/
theorem readRemTakesTheRest : Obligations.ReadRemTakesTheRest := by
  refine fun s b hq => ⟨by simp [rxReady, hq], fun hlt => ⟨_, s.stored_received b, fun hne => ?more, fun heq => ?last⟩,
    if_pos (.inr hq)⟩
  case more => rw [rxByte_of_readRem hq hlt, if_neg hne]; rfl
  case last => rw [rxByte_of_readRem hq hlt, if_pos heq]; rfl

/-! ## The transition table -/

/-- Settles O32: a row per enabled event, by its inversion lemma; of the host steps only an accepted `SEQ.XCHG` moves
`ST` (`exec_next_cases`). -/
theorem sequencerTransitionTable : Obligations.SequencerTransitionTable := by
  refine ⟨fun e s t h => ?event, fun i s t hwf h => ?instr⟩
  case instr =>
    obtain ⟨w, rfl⟩ | hk | ⟨-, -, rfl⟩ | ⟨rfl, p, -, -, rfl⟩ := exec_next_cases hwf h
    · exact .inl rfl
    · exact .inl hk.st
    · exact .inl rfl
    · exact .inr ⟨rfl, (seqXchg_next h).1, rfl, rfl⟩
  case event =>
    cases hen : e.enabledIn s.st with
    | false =>
      rw [onEvent_of_not_enabled hen] at h
      cases h
      split
      case h_10 => rfl
      -- the nine rows before the last one are of enabled events
      all_goals simp_all [Event.enabledIn]
    | true =>
      cases e with
      | openOk =>
        obtain ⟨hne, -⟩ | ⟨hq, rfl⟩ := openOk_next h
        · exact absurd (of_decide_eq_true hen) hne
        · rw [hq]
      | openFail =>
        obtain ⟨hne, -⟩ | ⟨hq, rfl⟩ := openFail_next h
        · exact absurd (of_decide_eq_true hen) hne
        · rw [hq]
      | txFail =>
        obtain ⟨hne, -⟩ | ⟨hq, rfl⟩ := txFail_next h
        · exact absurd (of_decide_eq_true hen) hne
        · rw [hq]
      | rxFail =>
        obtain ⟨hne, -⟩ | ⟨hq | hq, rfl⟩ := rxFail_next h
        · exact absurd (by simpa [Event.enabledIn] using hen) hne
        · rw [hq]
        · rw [hq]
      | txAccept =>
        obtain ⟨hne, -⟩ | ⟨hq, _, -, ⟨hcnt, rfl⟩ | ⟨hcnt, rfl⟩⟩ := txAccept_next h
        · exact absurd (of_decide_eq_true hen) hne
        · rw [hq]; exact (if_neg hcnt).symm
        · rw [hq]; exact (if_pos hcnt).symm
      | tick =>
        obtain ⟨hne, -⟩ | ⟨hq, hcnt, rfl⟩ | ⟨hq, hcnt, rfl⟩ := tick_next h
        · exact absurd (of_decide_eq_true hen) hne
        · rw [hq]; exact (if_pos (sub_eq_zero.1 hcnt)).symm
        · rw [hq]; exact (if_neg (sub_ne_zero.1 hcnt)).symm
      | rxByte b =>
        obtain ⟨hmin, hrem, -⟩ | ⟨-, u, rfl, ⟨hq, hlen, rfl⟩ | ⟨hq, hlen, n, htgt, ⟨-, rfl⟩ | ⟨hn, rfl⟩⟩ |
          ⟨hq, hlen, rfl⟩ | ⟨hq, hlen, rfl⟩⟩ := rxByte_next h
        · simp [Event.enabledIn, hmin, hrem] at hen
        · rw [hq]; exact (if_neg hlen).symm
        · rw [hq]; exact ((if_pos hlen).trans (if_pos rfl)).symm
        · obtain ⟨fc, r, -, -, rfl⟩ := target_eq_ok htgt
          have hne : (BitVec.ofNat 16 (targetOf fc r s.pred.toNat)).toNat ≠ 4 := (toNat_ofNat_targetOf hn).1.ne'
          rw [hq]; exact ((if_pos hlen).trans (if_neg hne)).symm
        · rw [hq]; exact (if_neg hlen).symm
        · rw [hq]; exact (if_pos hlen).symm

/-! ## Accesses and steps that do not fault -/

/-- An access that stays inside its buffers. -/
def Access.Faultless {α : Type} (x : Access α) : Prop := ∀ f, x ≠ .fault f

/-- A step that is a next state or a refusal. -/
def Result.Faultless (x : Result) : Prop := ∀ f, x ≠ .fault f

theorem faultless_next (s : State) : Result.Faultless (.next s) := nofun

theorem Access.Faultless.bind {α β : Type} {x : Access α} {k : α → Access β} (hx : x.Faultless)
    (hk : ∀ a, (k a).Faultless) : (x.bind k).Faultless := by
  cases x with
  | ok a => exact hk a
  | fault f => exact absurd rfl (hx f)
  | refused r => exact nofun

theorem Access.Faultless.andThen {α : Type} {x : Access α} {k : α → Result} (hx : x.Faultless)
    (hk : ∀ a, x = .ok a → Result.Faultless (k a)) : Result.Faultless (x.andThen k) := by
  cases x with
  | ok a => exact hk a rfl
  | fault f => exact absurd rfl (hx f)
  | refused r => exact nofun

theorem Result.Faultless.resultThen {x : Result} {k : State → Result} (hx : Result.Faultless x)
    (hk : ∀ s, Result.Faultless (k s)) : Result.Faultless (resultThen x k) := by
  cases x with
  | next s => exact hk s
  | fault f => exact absurd rfl (hx f)
  | refused r => exact nofun

theorem Result.Faultless.whenIdle {k : Result} (s : State) (hk : Result.Faultless k) :
    Result.Faultless (whenIdle s k) := by
  by_cases hidle : s.st = .idle
  · rwa [whenIdle_of_idle hidle]
  · rw [whenIdle_of_busy hidle]; exact nofun

theorem Result.Faultless.ite {p : Prop} [Decidable p] {x y : Result} (hx : Result.Faultless x)
    (hy : Result.Faultless y) : Result.Faultless (if p then x else y) := by
  split_ifs
  · exact hx
  · exact hy

theorem readCell_faultless {m : Memory} {b : Buf} {i : Nat} (h : i < b.size) : (readCell m b i).Faultless := by
  obtain ⟨v, -, -, hr⟩ | ⟨-, -, hr⟩ | ⟨hge, -⟩ := readCell_cases m b i
  · rw [hr]; exact nofun
  · rw [hr]; exact nofun
  · omega

theorem readCells_faultless {m : Memory} {b : Buf} {n : Nat} (h : n ≤ b.size) : (readCells m b 0 n).Faultless := by
  obtain ⟨l, -, hr, -⟩ | ⟨-, hr⟩ := readCells_cases m b 0 n (by omega) <;> rw [hr] <;> exact nofun

theorem writeCell_faultless {m : Memory} {b : Buf} {i : Nat} (h : i < b.size) (v : Byte) :
    (writeCell m b i v).Faultless := by
  rw [writeCell_ok h]; exact nofun

theorem writeCells_faultless {m : Memory} {b : Buf} {l : List Byte} (h : l.length ≤ b.size) :
    (writeCells m b 0 l).Faultless := by
  obtain ⟨m', hw, -⟩ := writeCells_spec m b 0 l (by omega)
  rw [hw]; exact nofun

/-! ## No host step faults -/

theorem reqCheck_faultless (s : State) : (reqCheck s).Faultless := by
  unfold reqCheck
  dsimp only
  split_ifs
  · exact nofun
  · exact nofun
  · refine (readCell_faultless (by decide)).bind fun fc => ?_
    split_ifs <;> exact nofun

theorem predict_faultless (s : State) : (predict s).Faultless := by
  refine (readCell_faultless (by decide)).bind fun fc => ?_
  dsimp only
  split_ifs
  · exact (readCell_faultless (by decide)).bind fun hi => (readCell_faultless (by decide)).bind fun lo => nofun
  · exact nofun

theorem withPrediction_faultless (s : State) {k : Nat → Result} (hk : ∀ p, Result.Faultless (k p)) :
    Result.Faultless (withPrediction s k) := by
  refine (reqCheck_faultless s).andThen fun e _ => ?_
  cases e with
  | some e => exact faultless_next _
  | none => exact (predict_faultless s).andThen fun p _ => hk p

/-- The frame built from `PLEN` ≤ 252 bytes fits `TXBUF` (41_framer R141). -/
theorem frmEncode_faultless (s : State) : Result.Faultless (exec .frmEncode s) := by
  refine Result.Faultless.whenIdle s ?_
  dsimp only
  split_ifs with hlong
  · exact faultless_next _
  · have hn : s.plen.toNat ≤ 252 := by simpa using hlong
    refine (readCells_faultless hn).andThen fun d hd => ?_
    have hfit : (frameOf s.uaddr s.ufc d).length ≤ 256 := by
      rw [frameOf_length, (holds_of_readCells hn hd).1]; omega
    exact (writeCells_faultless hfit).andThen fun m _ => faultless_next _

/-- The PDU of a frame of at most 256 bytes fits `PDAT` (41_framer R142). -/
theorem frmDecode_faultless (s : State) : Result.Faultless (exec .frmDecode s) := by
  refine Result.Faultless.whenIdle s ?_
  dsimp only
  split_ifs with hshort hlong
  · exact faultless_next _
  · exact faultless_next _
  · have hn : s.rxlen.toNat ≤ 256 := not_lt.1 hlong
    refine (readCells_faultless hn).andThen fun f _ => ?_
    split_ifs
    · exact faultless_next _
    · have hfit : ((f.drop 2).take (s.rxlen.toNat - 4)).length ≤ 252 := by simp; omega
      exact (writeCells_faultless hfit).andThen fun m _ => faultless_next _

theorem frmVerify_faultless (s : State) : Result.Faultless (exec .frmVerify s) := by
  refine Result.Faultless.whenIdle s ?_
  split_ifs
  · exact faultless_next _
  · exact faultless_next _
  · refine (readCell_faultless (by decide)).andThen fun r _ => (readCell_faultless (by decide)).andThen fun q _ => ?_
    exact .ite (faultless_next _) (faultless_next _)

theorem command_faultless {i : Instr} (hc : isCommand i = true) (s : State) : Result.Faultless (exec i s) := by
  cases i with
  | crcReset | crcPush | seqClose => exact Result.Faultless.whenIdle s (faultless_next _)
  | frmEncode => exact frmEncode_faultless s
  | frmDecode => exact frmDecode_faultless s
  | frmVerify => exact frmVerify_faultless s
  | seqPredict | seqXchg => exact Result.Faultless.whenIdle s (withPrediction_faultless s fun p => faultless_next _)
  | hostRd | hostWr | crcValue => cases hc

theorem runCommand_faultless (v : Word) (s : State) : Result.Faultless (runCommand v s) := by
  rw [runCommand_eq]
  cases hd : decodeCommand v with
  | none => exact Result.Faultless.whenIdle s (faultless_next _)
  | some i => exact command_faultless (isCommand_of_decodeCommand hd) s

/-- No host step faults, in a legal state or not: lengths are tested before buffers are accessed, and the index map
names existing cells only. -/
theorem exec_faultless (i : Instr) (s : State) : Result.Faultless (exec i s) := by
  cases i with
  | hostRd idx =>
    simp only [exec, execHostRd]
    split
    · exact faultless_next _
    next hcell => exact (readCell_faultless (lt_size_of_hostTarget_cell hcell)).andThen fun v _ => faultless_next _
    · exact nofun
  | hostWr idx v =>
    refine Result.Faultless.whenIdle s ?_
    split
    · exact .ite (runCommand_faultless v s) (faultless_next _)
    next hcell => exact (writeCell_faultless (lt_size_of_hostTarget_cell hcell) _).andThen fun m _ => faultless_next _
    · exact nofun
  | crcValue => exact faultless_next _
  | _ => exact command_faultless rfl s

/-! ## No driver event faults in a legal state -/

theorem target_faultless (s : State) : (target s).Faultless :=
  (readCell_faultless (by decide)).bind fun fc => (readCell_faultless (by decide)).bind fun r => nofun

/-- In the read states a legal state has room for one more byte (42_sequencer R184, R190). -/
theorem State.Inv.rxlen_lt {s : State} (h : s.Inv) (hq : s.st.reads = true) : s.rxlen.toNat < 256 := by
  cases hst : s.st with
  | readMin =>
    have hmin := h.readMinLength hst
    omega
  | readRem =>
    have hrem := h.readRemLength hst
    obtain htgt | htgt := h.rxTargetRange
    · simp [htgt] at hrem
    · omega
  | _ => rw [hst] at hq; cases hq

theorem onEvent_faultless {s : State} (h : s.Inv) (e : Event) : Result.Faultless (onEvent e s) := by
  cases hen : e.enabledIn s.st with
  | false => rw [onEvent_of_not_enabled hen]; exact faultless_next s
  | true =>
    cases e with
    | openOk | openFail | txFail | rxFail => exact .ite (faultless_next _) (faultless_next _)
    | tick =>
      rw [tick_of_wait (of_decide_eq_true hen)]
      exact .ite (faultless_next _) (faultless_next _)
    | txAccept =>
      have hq : s.st = .send := of_decide_eq_true hen
      have hlt : s.txcnt.toNat < 256 := (h.sendCount hq).trans_le (h.requestLength (by simp [hq])).2
      rw [txAccept_of_send hq]
      exact (readCell_faultless hlt).andThen fun b _ => .ite (faultless_next _) (faultless_next _)
    | rxByte b =>
      have hq : s.st = .readMin ∨ s.st = .readRem := by simpa [Event.enabledIn] using hen
      obtain hq | hq := hq
      · rw [rxByte_of_readMin hq (h.rxlen_lt (by rw [hq]; rfl))]
        exact .ite ((target_faultless _).andThen fun n _ => .ite (faultless_next _) (faultless_next _))
          (faultless_next _)
      · rw [rxByte_of_readRem hq (h.rxlen_lt (by rw [hq]; rfl))]
        exact .ite (faultless_next _) (faultless_next _)

theorem takeDriver_faultless {s : State} (h : s.Inv) (p : Pins) : Result.Faultless (takeDriver p s) := by
  rw [takeDriver_eq]
  split
  · exact onEvent_faultless h _
  · exact faultless_next s

theorem takeHostOf_faultless (p : Pins) (s : State) : Result.Faultless (takeHostOf p s) := by
  unfold takeHostOf
  split
  · exact exec_faultless _ s
  · exact faultless_next s

theorem takeInput_faultless {s : State} (h : s.Inv) (i : Input) : Result.Faultless (takeInput i s) := by
  cases i with
  | host t => exact exec_faultless _ s
  | event e => exact onEvent_faultless h e
  | reset => exact faultless_next _
  | cycle p =>
    simp only [takeInput, takeCycle]
    exact .ite (faultless_next _) ((takeDriver_faultless h p).resultThen (takeHostOf_faultless p))

/-- Settles O51: the step takes its input in the legal state at its beginning. -/
theorem legalStatesNeverFault : Obligations.LegalStatesNeverFault := by
  intro s f h
  cases hin : s.inputs with
  | nil => rw [step_of_inputs_nil hin]; exact nofun
  | cons i rest =>
    rw [step_of_inputs_cons hin]
    exact takeInput_faultless (h.with_io rest Outputs.quiet) i f

/-! ## A run over driver events -/

theorem run_one (M : Host.Core) (s : M.State) : M.run 1 s = M.step s := by
  rw [Host.Core.run]
  cases M.step s <;> rfl

theorem run_succ_of_run {M : Host.Core} {k : Nat} {s t : M.State} (h : M.run k s = .next t) :
    M.run (k + 1) s = M.step t := by
  induction k generalizing s with
  | zero => cases h; exact run_one M _
  | succ k ih =>
    rw [Host.Core.run] at h ⊢
    cases hs : M.step s with
    | next u => rw [hs] at h; exact ih h
    | fault f => rw [hs] at h; cases h
    | refused r => rw [hs] at h; cases h

section
variable {s : State} {rest : List Input}

theorem drop_inputs {es : List Event} (hin : s.inputs = es.map .event ++ rest) {k : Nat} (hk : k < es.length) :
    s.inputs.drop k = .event es[k] :: s.inputs.drop (k + 1) := by
  have hk' : k < s.inputs.length := by simp [hin]; omega
  rw [List.drop_eq_getElem_cons hk']
  simp [hin, hk]

/-- A run over events: if every event but the last one takes the states of `P k` to those of `P (k + 1)`, whatever
inputs remain, then a run of `k + 1` steps ends with event `k`, in a state of `P k`. -/
theorem run_events {P : Nat → State → Prop} {es : List Event} (h0 : P 0 s) (hin : s.inputs = es.map .event ++ rest)
    (hP : ∀ k, (hk : k + 1 < es.length) → ∀ t i, P k t →
      ∃ u o, onEvent es[k] (t.beginStep i) = .next { u with inputs := i, out := o } ∧ P (k + 1) u)
    (k : Nat) (hk : k < es.length) :
    ∃ t, P k t ∧
      Host.Core.run Sys2Proof.core (k + 1) s = onEvent es[k] (t.beginStep (s.inputs.drop (k + 1))) := by
  induction k with
  | zero => exact ⟨s, h0, (run_one Sys2Proof.core s).trans (step_of_inputs_cons (drop_inputs hin hk))⟩
  | succ k ih =>
    obtain ⟨t, ht, hrun⟩ := ih (by omega)
    obtain ⟨u, o, he, hu⟩ := hP k hk t (s.inputs.drop (k + 1)) ht
    have hstep : step { u with inputs := s.inputs.drop (k + 1), out := o } =
        takeInput (.event es[k + 1]) (u.beginStep (s.inputs.drop (k + 2))) :=
      step_of_inputs_cons (drop_inputs hin hk)
    exact ⟨u, hu, (run_succ_of_run (hrun.trans he)).trans hstep⟩

/-- A run over one event again and again, through the states `σ 0`, `σ 1`, … -/
theorem run_same_events {σ : Nat → State} {e : Event} {n : Nat} (h0 : s = σ 0)
    (hin : s.inputs = List.replicate n (.event e) ++ rest)
    (hσ : ∀ k, k + 1 < n → ∀ i, ∃ o, onEvent e ((σ k).beginStep i) = .next { σ (k + 1) with inputs := i, out := o })
    {k : Nat} (hk : k < n) :
    Host.Core.run Sys2Proof.core (k + 1) s =
      onEvent e ((σ k).beginStep (List.replicate (n - (k + 1)) (.event e) ++ rest)) := by
  have hin' : s.inputs = (List.replicate n e).map .event ++ rest := by rw [hin, List.map_replicate]
  have hdrop : s.inputs.drop (k + 1) = List.replicate (n - (k + 1)) (.event e) ++ rest := by
    rw [hin, List.drop_append_of_le_length (by simpa using hk), List.drop_replicate]
  have hstep : ∀ k, (hk : k + 1 < (List.replicate n e).length) → ∀ t i, t = σ k →
      ∃ u o, onEvent (List.replicate n e)[k] (t.beginStep i) = .next { u with inputs := i, out := o } ∧
        u = σ (k + 1) := by
    rintro k hk _ i rfl
    obtain ⟨o, ho⟩ := hσ k (by simpa using hk) i
    exact ⟨_, o, by rw [List.getElem_replicate, ho], rfl⟩
  obtain ⟨_, rfl, hrun⟩ := run_events h0 hin' hstep k (by simpa using hk)
  rwa [List.getElem_replicate, hdrop] at hrun

end

/-! ## The request is sent -/

/-- The registers of `SEND` with the first `k` bytes handed over. -/
def State.handedOver (s : State) (k : Nat) : State := { s with txcnt := BitVec.ofNat 16 k }

theorem State.eq_handedOver_zero {s : State} (h : s.txcnt = 0) : s = s.handedOver 0 := by
  cases s; cases h; rfl

/-- `TxAccept` in `SEND` hands over byte `k` of the request; the last one starts the wait (42_sequencer R180). -/
theorem txAccept_of_handedOver {s : State} {f : List Byte} (hq : s.st = .send) (hlen : f.length = s.txlen.toNat)
    (hmax : f.length ≤ 256) (hf : s.holds .txbuf f) {k : Nat} (hk : k < f.length) (i : List Input) :
    onEvent .txAccept ((s.handedOver k).beginStep i) =
      if k + 1 = f.length then
        .next { s with
          txcnt := s.txlen, waitcnt := BitVec.ofNat 32 (waitUs s.baud.toNat s.txlen.toNat), st := .wait, inputs := i,
          out := { Outputs.quiet with txTaken := some f[k] } }
      else .next { s.handedOver (k + 1) with inputs := i, out := { Outputs.quiet with txTaken := some f[k] } } := by
  have hcnt : (s.handedOver k).txcnt.toNat = k := by
    show (BitVec.ofNat 16 k).toNat = k
    rw [BitVec.toNat_ofNat, Nat.mod_eq_of_lt (by omega)]
  have hsucc : (s.handedOver k).txcnt + 1 = (s.handedOver (k + 1)).txcnt := (BitVec.ofNat_add k 1).symm
  have hlast : (s.handedOver (k + 1)).txcnt = ((s.handedOver k).beginStep i).txlen ↔ k + 1 = f.length := by
    show BitVec.ofNat 16 (k + 1) = s.txlen ↔ _
    rw [← BitVec.toNat_inj, BitVec.toNat_ofNat, Nat.mod_eq_of_lt (by omega), hlen]
  have hread : readCell ((s.handedOver k).beginStep i).mem .txbuf ((s.handedOver k).beginStep i).txcnt.toNat =
      .ok f[k] :=
    readCell_of_read (by rw [State.beginStep_txcnt, hcnt]; exact hk.trans_le hmax)
      (by rw [State.beginStep_txcnt, hcnt]; exact hf k hk)
  rw [txAccept_of_send (s := (s.handedOver k).beginStep i) hq, hread, Access.andThen_ok, State.beginStep_txcnt, hsucc]
  by_cases hl : k + 1 = f.length
  · rw [if_pos (hlast.2 hl), if_pos hl, hlast.2 hl]; rfl
  · rw [if_neg (fun h => hl (hlast.1 h)), if_neg hl]; rfl

/-- Settles O53: each `TxAccept` hands over the next byte, and only the last one leaves `SEND`. -/
theorem requestLeavesInOrder : Obligations.RequestLeavesInOrder := by
  intro s f rest hq hcnt hlen hpos hmax hf hin
  have hevent := fun k (hk : k < f.length) => txAccept_of_handedOver hq hlen hmax hf hk
  have hrun := fun k (hk : k < f.length) =>
    run_same_events (σ := s.handedOver) (State.eq_handedOver_zero hcnt) hin
      (fun k hk i => ⟨_, (hevent k (by omega) i).trans (if_neg (by omega))⟩) hk
  refine ⟨fun k hk => ?handsOver, ?last⟩
  case handsOver =>
    rw [hrun k hk, hevent k hk]
    split_ifs <;> exact ⟨_, rfl, rfl⟩
  case last =>
    obtain ⟨n, hn⟩ : ∃ n, f.length = n + 1 := ⟨f.length - 1, by omega⟩
    rw [hn, hrun n (by omega), hevent n (by omega), if_pos hn.symm, ← hn, Nat.sub_self]
    exact ⟨_, rfl, rfl⟩

/-! ## The wait -/

/-- The registers of `WAIT` after `k` ticks. -/
def State.ticked (s : State) (k : Nat) : State := { s with waitcnt := s.waitcnt - BitVec.ofNat 32 k }

theorem State.toNat_ticked {s : State} {k : Nat} (hk : k ≤ s.waitcnt.toNat) :
    (s.ticked k).waitcnt.toNat = s.waitcnt.toNat - k := by
  show (s.waitcnt - BitVec.ofNat 32 k).toNat = _
  bv_omega

/-- A tick in `WAIT` counts down; the last one leaves for `READ_MIN` (42_sequencer R181). -/
theorem tick_of_ticked {s : State} {k : Nat} (hq : s.st = .wait) (hk : k < s.waitcnt.toNat) (i : List Input) :
    onEvent .tick ((s.ticked k).beginStep i) =
      if k + 1 = s.waitcnt.toNat then .next { s with st := .readMin, waitcnt := 0, inputs := i, out := Outputs.quiet }
      else .next { s.ticked (k + 1) with inputs := i, out := Outputs.quiet } := by
  have hsucc : (s.ticked k).waitcnt - 1 = (s.ticked (k + 1)).waitcnt := by
    simp only [State.ticked]
    bv_omega
  have hlast : (s.ticked (k + 1)).waitcnt = 0 ↔ k + 1 = s.waitcnt.toNat := by
    rw [← BitVec.toNat_inj, State.toNat_ticked hk]
    simp; omega
  rw [tick_of_wait (s := (s.ticked k).beginStep i) hq, State.beginStep_waitcnt, hsucc]
  by_cases hl : k + 1 = s.waitcnt.toNat
  · rw [if_pos (hlast.2 hl), if_pos hl, hlast.2 hl]; rfl
  · rw [if_neg (fun h => hl (hlast.1 h)), if_neg hl]; rfl

/-- Settles O54: each tick counts down by one, and only the last one leaves `WAIT`. -/
theorem waitLastsItsTicks : Obligations.WaitLastsItsTicks := by
  intro s rest hq hpos hin
  have hevent := fun k (hk : k < s.waitcnt.toNat) => tick_of_ticked hq hk
  have hrun := fun k (hk : k < s.waitcnt.toNat) =>
    run_same_events (σ := s.ticked) (by simp [State.ticked]) hin
      (fun k hk i => ⟨_, (hevent k (by omega) i).trans (if_neg (by omega))⟩) hk
  refine ⟨fun k hk => ?waits, ?last⟩
  case waits =>
    cases k with
    | zero => exact ⟨s, rfl, hq, rfl⟩
    | succ k =>
      rw [hrun k (by omega), hevent k (by omega), if_neg (by omega)]
      exact ⟨_, rfl, hq, State.toNat_ticked hk.le⟩
  case last =>
    obtain ⟨n, hn⟩ : ∃ n, s.waitcnt.toNat = n + 1 := ⟨s.waitcnt.toNat - 1, by omega⟩
    rw [hn, hrun n (by omega), hevent n (by omega), if_pos hn.symm, ← hn, Nat.sub_self]
    rfl

/-! ## The response is received -/

/-- The registers of the read phase with `k` bytes of a frame of `n` received, the memory being `m`. -/
def State.receiving (s : State) (n k : Nat) (m : Memory) : State :=
  { s with
    mem := m, rxlen := BitVec.ofNat 16 k, rxtgt := if k < 4 then s.rxtgt else BitVec.ofNat 16 n,
    st := if k < 4 then .readMin else .readRem }

theorem State.eq_receiving_zero {s : State} (hq : s.st = .readMin) (hlen : s.rxlen = 0) (n : Nat) :
    s = s.receiving n 0 s.mem := by
  cases s; cases hq; cases hlen; rfl

theorem State.receiving_of_lt {k : Nat} (h : k < 4) (s : State) (n : Nat) (m : Memory) :
    s.receiving n k m = { s with mem := m, rxlen := BitVec.ofNat 16 k, st := .readMin } := by
  simp only [State.receiving, if_pos h]

theorem State.receiving_of_ge {k : Nat} (h : 4 ≤ k) (s : State) (n : Nat) (m : Memory) :
    s.receiving n k m =
      { s with mem := m, rxlen := BitVec.ofNat 16 k, rxtgt := BitVec.ofNat 16 n, st := .readRem } := by
  simp only [State.receiving, if_neg (not_lt.2 h)]

theorem State.toNat_receiving {n k : Nat} (hk : k ≤ 256) (s : State) (m : Memory) :
    (s.receiving n k m).rxlen.toNat = k := by
  show (BitVec.ofNat 16 k).toNat = k
  rw [BitVec.toNat_ofNat, Nat.mod_eq_of_lt (by omega)]

theorem State.received_receiving {n k : Nat} (hk : k ≤ 256) (s : State) (m : Memory) (b : Byte) (i : List Input) :
    ((s.receiving n k m).beginStep i).received b =
      { (s.receiving n k m).beginStep i with
        mem := Memory.write m (Buf.rxbuf.addr k) b, rxlen := BitVec.ofNat 16 (k + 1) } := by
  rw [State.received, State.beginStep_rxlen, State.toNat_receiving hk, BitVec.ofNat_add]
  rfl

/-- `RxByte` in the read phase stores byte `k` and counts it; the fourth byte decides the length `n`, and the last byte
completes the exchange (42_sequencer R182 to R185). -/
theorem rxByte_of_receiving {s : State} {n k : Nat} {m : Memory} {b : Byte} (h4 : 4 ≤ n) (h256 : n ≤ 256) (hk : k < n)
    (htgt : k = 3 → target { s with mem := Memory.write m (Buf.rxbuf.addr k) b } = .ok n) (i : List Input) :
    onEvent (.rxByte b) ((s.receiving n k m).beginStep i) =
      if k + 1 = n then
        .next { s with
          mem := Memory.write m (Buf.rxbuf.addr k) b, rxlen := BitVec.ofNat 16 n, rxtgt := BitVec.ofNat 16 n,
          doneBit := true, st := .idle, inputs := i, out := Outputs.quiet }
      else
        .next { s.receiving n (k + 1) (Memory.write m (Buf.rxbuf.addr k) b) with
          inputs := i, out := Outputs.quiet } := by
  have hlt : ((s.receiving n k m).beginStep i).rxlen.toNat < 256 := by
    rw [State.beginStep_rxlen, State.toNat_receiving (by omega)]; omega
  have hrec := s.received_receiving (n := n) (show k ≤ 256 by omega) m b i
  have hsucc : ((s.receiving n k m).beginStep i).rxlen + 1 = BitVec.ofNat 16 (k + 1) := (BitVec.ofNat_add k 1).symm
  have hcount : ∀ c, c ≤ 256 → (BitVec.ofNat 16 (k + 1) = BitVec.ofNat 16 c ↔ k + 1 = c) := by
    intro c hc
    rw [← BitVec.toNat_inj, BitVec.toNat_ofNat, BitVec.toNat_ofNat, Nat.mod_eq_of_lt (by omega),
      Nat.mod_eq_of_lt (by omega)]
  obtain hk3 | rfl | hk4 := Nat.lt_trichotomy k 3
  · have hq : ((s.receiving n k m).beginStep i).st = .readMin := if_pos (by omega)
    have hne : ((s.receiving n k m).beginStep i).rxlen + 1 ≠ 4 := by
      rw [hsucc]; exact (hcount 4 (by omega)).not.2 (by omega)
    rw [rxByte_of_readMin hq hlt, if_neg hne, hrec, if_neg (by omega), State.receiving_of_lt (by omega),
      State.receiving_of_lt (by omega)]
    rfl
  · have hfour : ((s.receiving n 3 m).beginStep i).rxlen + 1 = 4 := hsucc
    have ht : target (((s.receiving n 3 m).beginStep i).received b) = .ok n := by rw [hrec]; exact htgt rfl
    rw [rxByte_of_readMin rfl hlt, if_pos hfour, ht, Access.andThen_ok, hrec,
      State.receiving_of_ge (k := 3 + 1) le_rfl]
    by_cases hn : n = 4
    · subst hn; rfl
    · rw [if_neg hn, if_neg (Ne.symm hn)]; rfl
  · have hq : ((s.receiving n k m).beginStep i).st = .readRem := if_neg (by omega)
    have hg : ((s.receiving n k m).beginStep i).rxtgt = BitVec.ofNat 16 n := if_neg (by omega)
    rw [rxByte_of_readRem hq hlt, hsucc, hg, hrec, State.receiving_of_ge (by omega), State.receiving_of_ge (by omega)]
    by_cases hl : k + 1 = n
    · rw [if_pos ((hcount n h256).2 hl), if_pos hl, hl]; rfl
    · rw [if_neg ((hcount n h256).not.2 hl), if_neg hl]; rfl

/-- One more byte stored behind the first `k`. -/
theorem State.stored.snoc {s : State} {b : Buf} {l : List Byte} {m : Memory} {k : Nat}
    (h : s.stored b 0 (l.take k) m) (hk : k < l.length) :
    s.stored b 0 (l.take (k + 1)) (Memory.write m (b.addr k) l[k]) := by
  have hlen : (l.take k).length = k := by simp; omega
  refine ⟨fun j hj => ?inside, fun a ha => ?outside⟩
  case inside =>
    rw [Nat.zero_add, List.getElem_take]
    obtain rfl | hne := eq_or_ne j k
    · exact Memory.read_write_same m _ _
    · have hj' : j < (l.take k).length := by simp at hj; omega
      rw [Memory.read_write_other (by simpa [Buf.addr] using hne), h.read hj', List.getElem_take]
  case outside =>
    have hlen' : (l.take (k + 1)).length = k + 1 := by simp; omega
    rw [Buf.addr_add, hlen'] at ha
    rw [Memory.read_write_other (by simp only [Buf.addr] at ha ⊢; omega)]
    exact h.2 a (by rw [Buf.addr_add, hlen]; omega)

/-- `target()` at the fourth byte: the first four bytes do not touch the function code in `TXBUF[1]`, and the second of
them stands in `RXBUF[1]` (42_sequencer R183). -/
theorem target_of_stored {s : State} {fc b0 b1 : Byte} {l : List Byte} {m : Memory} (hfc : s.cell .txbuf 1 = some fc)
    (hlen : 4 ≤ (b0 :: b1 :: l).length) (hm : s.stored .rxbuf 0 ((b0 :: b1 :: l).take 4) m) :
    target { s with mem := m } = .ok (targetOf fc b1 s.pred.toNat) := by
  have hfour : ((b0 :: b1 :: l).take 4).length = 4 := List.length_take_of_le hlen
  have hfit : ((b0 :: b1 :: l).take 4).length ≤ Buf.rxbuf.size := by rw [hfour]; decide
  exact target_of_cells ((hm.read_other hfit (by decide) (by decide)).trans hfc) (hm.read (k := 1) (by omega))

/-- The states of the read phase with the first `k` bytes of the frame `f` received. -/
def State.HasReceived (s : State) (f : List Byte) (k : Nat) (t : State) : Prop :=
  ∃ m, s.stored .rxbuf 0 (f.take k) m ∧ t = s.receiving f.length k m

/-- Settles O55: before the last byte the read phase goes on, from the fourth byte towards the decided length. -/
theorem responseBytesBecomeTheFrame : Obligations.ResponseBytesBecomeTheFrame := by
  intro s fc b0 b1 l rest hq hzero hfc hlen hin
  have hrange : 4 ≤ (b0 :: b1 :: l).length ∧ (b0 :: b1 :: l).length ≤ 256 := by
    have hcases := targetOf_cases fc b1 s.pred.toNat
    omega
  obtain ⟨h4, h256⟩ := hrange
  have htgt : ∀ m, s.stored .rxbuf 0 ((b0 :: b1 :: l).take 4) m →
      target { s with mem := m } = .ok (b0 :: b1 :: l).length := fun m hm => hlen ▸ target_of_stored hfc h4 hm
  generalize b0 :: b1 :: l = f at *
  have hevent := fun k (hk : k < f.length) m (hm : s.stored .rxbuf 0 (f.take k) m) =>
    rxByte_of_receiving (s := s) (m := m) (b := f[k]) h4 h256 hk fun h3 => htgt _ (by subst h3; exact hm.snoc hk)
  have hstart : s.HasReceived f 0 s := ⟨s.mem, ⟨nofun, fun _ _ => rfl⟩, State.eq_receiving_zero hq hzero _⟩
  have hin' : s.inputs = (f.map Event.rxByte).map .event ++ rest := by rw [hin, List.map_map]; rfl
  have hstep : ∀ k, (hk : k + 1 < (f.map Event.rxByte).length) → ∀ t i, s.HasReceived f k t →
      ∃ u o, onEvent (f.map Event.rxByte)[k] (t.beginStep i) = .next { u with inputs := i, out := o } ∧
        s.HasReceived f (k + 1) u := by
    rintro k hk _ i ⟨m, hm, rfl⟩
    rw [List.length_map] at hk
    have hk' : k < f.length := by omega
    exact ⟨_, _, by rw [List.getElem_map, hevent k hk' m hm, if_neg (by omega)], _, hm.snoc hk', rfl⟩
  obtain ⟨n, hn⟩ : ∃ n, f.length = n + 1 := ⟨f.length - 1, by omega⟩
  have hlast : n < f.length := by omega
  obtain ⟨_, ⟨m, hm, rfl⟩, hrun⟩ := run_events hstart hin' hstep n (by rwa [List.length_map])
  have hdrop : s.inputs.drop (n + 1) = rest := by rw [hin, List.drop_left' (by rw [List.length_map, hn])]
  have hstored := hm.snoc hlast
  rw [List.getElem_map, hevent n hlast m hm, if_pos hn.symm, hdrop, ← hn] at hrun
  rw [← hn, List.take_length] at hstored
  exact ⟨_, hrun, hstored⟩

end Sys2Proof.Machine
end

section
/-! Proofs about 60_exceptions: which command, word or event leaves which error (R230 to R236), the order in which the
inputs of one clock cycle are taken (R240), and the outputs and enabled events of each state (R249). -/

namespace Sys2Proof.Machine

/-! ## The outputs and the enabled events -/

/-- Settles O31: the outputs are these functions of the state, and `onEvent_of_not_enabled` is the rest. -/
theorem portsAndEventsPerState : Obligations.PortsAndEventsPerState :=
  ⟨fun _ => ⟨rfl, rfl, fun hq => if_pos (decide_eq_true hq), rfl, rfl⟩, fun _ _ => onEvent_of_not_enabled⟩

/-- A step that answers a next state. -/
def Result.Completes (x : Result) : Prop := ∃ t, x = .next t

theorem completes_next (s : State) : Result.Completes (.next s) := ⟨s, rfl⟩

theorem Result.Completes.ite {p : Prop} [Decidable p] {x y : Result} (hx : p → Result.Completes x)
    (hy : Result.Completes y) : Result.Completes (if p then x else y) := by
  split_ifs with hp
  · exact hx hp
  · exact hy

theorem readCell_of_written {s : State} {b : Buf} {i : Nat} (hi : i < b.size) (h : s.written b i) :
    ∃ v, readCell s.mem b i = .ok v := by
  obtain ⟨v, hv⟩ := Option.isSome_iff_exists.1 h
  exact ⟨v, readCell_of_read hi hv⟩

theorem target_of_written {s : State} (hfc : s.written .txbuf 1) (hr : s.written .rxbuf 1) :
    ∃ n, target s = .ok n := by
  obtain ⟨fc, hfc⟩ := Option.isSome_iff_exists.1 hfc
  obtain ⟨r, hr⟩ := Option.isSome_iff_exists.1 hr
  exact ⟨_, target_of_cells hfc hr⟩

/-- At the fourth response byte of a legal exchange both bytes that decide the length have been written: the request's
code when it was accepted, the response's second byte before (42_sequencer R174, R182). -/
theorem State.Inv.target_received {s : State} (h : s.Inv) (hq : s.st = .readMin) (b : Byte) (h4 : s.rxlen + 1 = 4) :
    ∃ n, target (s.received b) = .ok n := by
  have hlt : s.rxlen.toNat < 256 := h.rxlen_lt (by rw [hq]; rfl)
  have hcode := ((h.exchanging (by simp [hq])).received b hlt).requestCode
  have hlen : (s.received b).rxlen.toNat = 4 := congrArg BitVec.toNat h4
  exact target_of_written hcode (State.received_written b hlt (h.rxWritten (by rw [hq]; rfl)) 1 (by omega))

theorem onEvent_completes {s : State} {e : Event} (h : s.Inv) (hen : e.enabledIn s.st = true)
    (hw : e = .txAccept → s.written .txbuf s.txcnt.toNat) : Result.Completes (onEvent e s) := by
  cases e with
  | openOk | openFail | txFail | rxFail => exact .ite (fun _ => completes_next _) (completes_next _)
  | tick =>
    rw [tick_of_wait (of_decide_eq_true hen)]
    exact .ite (fun _ => completes_next _) (completes_next _)
  | txAccept =>
    have hq : s.st = .send := of_decide_eq_true hen
    have hlt : s.txcnt.toNat < 256 := (h.sendCount hq).trans_le (h.requestLength (by simp [hq])).2
    obtain ⟨b, hb⟩ := readCell_of_written hlt (hw rfl)
    rw [txAccept_of_send hq, hb, Access.andThen_ok]
    exact .ite (fun _ => completes_next _) (completes_next _)
  | rxByte b =>
    have hq : s.st = .readMin ∨ s.st = .readRem := by simpa [Event.enabledIn] using hen
    obtain hq | hq := hq
    · rw [rxByte_of_readMin hq (h.rxlen_lt (by rw [hq]; rfl))]
      refine .ite (fun h4 => ?_) (completes_next _)
      obtain ⟨n, hn⟩ := h.target_received hq b h4
      rw [hn, Access.andThen_ok]
      exact .ite (fun _ => completes_next _) (completes_next _)
    · rw [rxByte_of_readRem hq (h.rxlen_lt (by rw [hq]; rfl))]
      exact .ite (fun _ => completes_next _) (completes_next _)

/-- Settles O52: the event completes (`onEvent_completes`), and every event keeps `State.Inv`. -/
theorem enabledEventsComplete : Obligations.EnabledEventsComplete := by
  intro s e h hen hw
  obtain ⟨t, ht⟩ := onEvent_completes h hen hw
  exact ⟨t, ht, onEvent_inv h ht⟩

/-! ## One clock cycle -/

/-- Settles O48: reset is the first test of a cycle; past it `takeDriver_eq` says which event the cycle brings. -/
theorem cycleTakesInputsInOrder : Obligations.CycleTakesInputsInOrder := by
  refine ⟨fun s p rest hin hrst => ?reset, fun s u p rest hin hrst hu => ?events⟩
  case reset => exact (step_of_inputs_cons hin).trans (if_pos hrst)
  case events =>
    subst hu
    calc step s = takeCycle p (s.beginStep rest) := step_of_inputs_cons hin
      _ = resultThen (takeDriver p (s.beginStep rest)) (takeHostOf p) := if_neg (by simp [hrst])
      _ = _ := by rw [takeDriver_eq]; rfl

/-! ## The errors of the commands -/

/-- The received frame's last two bytes are not the checksum of the rest, low byte first (41_framer R142). -/
def State.ChecksumFails (s : State) : Prop :=
  4 ≤ s.rxlen.toNat ∧ s.rxlen.toNat ≤ 256 ∧
  ∃ (l : List Byte) (lo hi : Byte), l.length + 2 = s.rxlen.toNat ∧ s.holds .rxbuf (l ++ [lo, hi]) ∧
    ¬(lo = lo8 (crc16 l) ∧ hi = hi8 (crc16 l))

/-- The instruction has cause in the state `s` to raise the error `e` (60_exceptions R231 to R234). -/
def Raises (i : Instr) (s : State) (e : Err) : Prop :=
  match i with
  | .frmEncode => 252 < s.plen.toNat ∧ e = .frameTooLong
  | .frmDecode =>
    (s.rxlen.toNat < 4 ∧ e = .frameTooShort) ∨ (256 < s.rxlen.toNat ∧ e = .frameTooLong) ∨
    (s.ChecksumFails ∧ e = .crcMismatch)
  | .frmVerify =>
    ((s.rxlen.toNat < 4 ∨ s.txlen.toNat < 1) ∧ e = .frameTooShort) ∨
    (4 ≤ s.rxlen.toNat ∧ 1 ≤ s.txlen.toNat ∧ s.cell .rxbuf 0 ≠ s.cell .txbuf 0 ∧ e = .addressMismatch)
  | .seqPredict => s.rejects e
  | .seqXchg => s.rejects e
  | .crcReset => False
  | .crcPush _ => False
  | .seqClose => False
  | .hostRd _ => False
  | .hostWr _ _ => False
  | .crcValue => False

theorem rejects_of_reqCheck {s : State} {e : Err} (h : reqCheck s = .ok (some e)) : s.rejects e := by
  obtain ⟨he, h256⟩ | ⟨he, h2⟩ | ⟨h2, -, fc, hfc, he⟩ := reqCheck_eq_ok h
  · exact .inl ⟨h256, Option.some.inj he⟩
  · exact .inr (.inl ⟨h2, Option.some.inj he⟩)
  · split_ifs at he with hq
    exact .inr (.inr ⟨h2, hq.2, Option.some.inj he, fc, hfc, hq.1⟩)

/-- What `FRM.DECODE` reads past its length tests is a frame (30_encoding R96). -/
theorem frmDecode_reads_frame {s t : State} (h : exec .frmDecode s = .next t) (h4 : 4 ≤ s.rxlen.toNat)
    (h256 : s.rxlen.toNat ≤ 256) :
    ∃ a fc d lo hi, d.length + 4 = s.rxlen.toNat ∧ s.holds .rxbuf (a :: fc :: (d ++ [lo, hi])) := by
  obtain ⟨-, ⟨hlt, -⟩ | ⟨hgt, -⟩ | ⟨-, -, f, hf, -⟩⟩ := frmDecode_next h
  · omega
  · omega
  · obtain ⟨hlen, hholds⟩ := holds_of_readCells h256 hf
    obtain ⟨a, fc, d, lo, hi, rfl⟩ := eq_frame_of_length (hlen ▸ h4)
    exact ⟨a, fc, d, lo, hi, by simpa using hlen, hholds⟩

theorem checksumFails_of_frmDecode {s t : State} (h : exec .frmDecode s = .next t) (h4 : 4 ≤ s.rxlen.toNat)
    (h256 : s.rxlen.toNat ≤ 256) (ht : t.err ≠ .none) : s.ChecksumFails := by
  obtain ⟨a, fc, d, lo, hi, hlen, hf⟩ := frmDecode_reads_frame h h4 h256
  refine ⟨h4, h256, a :: fc :: d, lo, hi, hlen, hf, fun ⟨hlo, hhi⟩ => ht ?_⟩
  subst hlo hhi
  obtain ⟨m, hm, -⟩ := frmDecode_of_frameOf (frmDecode_next h).1 hlen (by omega) hf
  rw [h] at hm
  cases hm
  rfl

theorem frmDecode_of_checksumFails {s : State} (hidle : s.st = .idle) (h : s.ChecksumFails) :
    ∃ c, exec .frmDecode s = .next { s with crc := c, err := .crcMismatch } := by
  obtain ⟨h4, h256, l, lo, hi, hlen, hf, hbad⟩ := h
  match l, hlen, hf, hbad with
  | a :: fc :: d, hlen, hf, hbad =>
    exact ⟨_, (frmDecode_of_holds hidle hlen (by simp at hlen; omega) hf).trans (if_pos (not_and_or.1 hbad))⟩
  | [_], hlen, _, _ => simp at hlen; omega
  | [], hlen, _, _ => simp at hlen; omega

theorem cell_of_readCell {s : State} {b : Buf} {i : Nat} {v : Byte} (h : readCell s.mem b i = .ok v) :
    s.cell b i = some v := by
  obtain ⟨v', -, hv, hr⟩ | ⟨-, -, hr⟩ | ⟨-, hr⟩ := readCell_cases s.mem b i <;> rw [hr] at h <;> cases h
  exact hv

/-- The error `FRM.VERIFY` leaves, by its tests in order (41_framer R143). -/
theorem frmVerify_err {s t : State} (h : exec .frmVerify s = .next t) :
    ((s.rxlen.toNat < 4 ∨ s.txlen.toNat < 1) ∧ t.err = .frameTooShort) ∨
    (4 ≤ s.rxlen.toNat ∧ 1 ≤ s.txlen.toNat ∧
      ((s.cell .rxbuf 0 ≠ s.cell .txbuf 0 ∧ t.err = .addressMismatch) ∨
       (s.cell .rxbuf 0 = s.cell .txbuf 0 ∧ t.err = .none))) := by
  have hidle := (frmVerify_next h).1
  obtain ⟨-, htests⟩ := frmVerifyComparesAddresses
  obtain ⟨hrx, htx, -⟩ := htests s hidle
  by_cases h4 : s.rxlen.toNat < 4
  · rw [hrx h4] at h
    cases h
    exact .inl ⟨.inl h4, rfl⟩
  by_cases h1 : s.txlen.toNat < 1
  · rw [htx (not_lt.1 h4) h1] at h
    cases h
    exact .inl ⟨.inr h1, rfl⟩
  rw [frmVerify_of_lengths hidle (not_lt.1 h4) (not_lt.1 h1)] at h
  obtain ⟨r, hr, h⟩ := Access.andThen_next h
  obtain ⟨q, hq, h⟩ := Access.andThen_next h
  refine .inr ⟨not_lt.1 h4, not_lt.1 h1, ?_⟩
  rw [cell_of_readCell hr, cell_of_readCell hq, ne_eq, Option.some_inj]
  split_ifs at h with hne <;> cases h
  · exact .inl ⟨hne, rfl⟩
  · exact .inr ⟨not_not.1 hne, rfl⟩

section
variable {i : Instr} {s t : State} (hc : isCommand i = true) (h : exec i s = .next t)
include hc h

/-- An error a command leaves has its cause. -/
theorem raises_of_err (ht : t.err ≠ .none) : Raises i s t.err := by
  cases i with
  | crcReset => obtain ⟨-, rfl⟩ := crcReset_next h; exact ht rfl
  | crcPush => obtain ⟨-, rfl⟩ := crcPush_next h; exact ht rfl
  | seqClose => obtain ⟨-, rfl⟩ := seqClose_next h; exact ht rfl
  | frmEncode =>
    obtain ⟨-, ⟨hgt, rfl⟩ | ⟨-, _, _, -, -, rfl⟩⟩ := frmEncode_next h
    · exact ⟨hgt, rfl⟩
    · exact absurd rfl ht
  | frmDecode =>
    obtain ⟨-, ⟨hlt, rfl⟩ | ⟨hgt, rfl⟩ | ⟨h4, h256, _, -, ⟨-, rfl⟩ | ⟨-, -, _, -, rfl⟩⟩⟩ := frmDecode_next h
    · exact .inl ⟨hlt, rfl⟩
    · exact .inr (.inl ⟨hgt, rfl⟩)
    · exact .inr (.inr ⟨checksumFails_of_frmDecode h h4 h256 ht, rfl⟩)
    · exact absurd rfl ht
  | frmVerify =>
    obtain hshort | ⟨h4, h1, hne | ⟨-, hnone⟩⟩ := frmVerify_err h
    · exact .inl hshort
    · exact .inr ⟨h4, h1, hne⟩
    · exact absurd hnone ht
  | seqPredict =>
    obtain ⟨-, ⟨_, he, rfl⟩ | ⟨_, -, -, rfl⟩⟩ := seqPredict_next h
    · exact rejects_of_reqCheck he
    · exact absurd rfl ht
  | seqXchg =>
    obtain ⟨-, ⟨_, he, rfl⟩ | ⟨_, -, -, rfl⟩⟩ := seqXchg_next h
    · exact rejects_of_reqCheck he
    · exact absurd rfl ht
  | hostRd | hostWr | crcValue => cases hc

/-- A cause leaves its error. -/
theorem err_of_raises {e : Err} (hr : Raises i s e) : t.err = e := by
  have err_eq : ∀ {u : State}, exec i s = .next u → t.err = u.err := fun hu =>
    congrArg State.err (Host.Outcome.next.inj (h.symm.trans hu))
  cases i with
  | frmEncode =>
    obtain ⟨hgt, rfl⟩ := hr
    exact err_eq (frmEncode_of_gt (frmEncode_next h).1 hgt)
  | frmDecode =>
    have hidle := (frmDecode_next h).1
    obtain ⟨hlt, rfl⟩ | ⟨hgt, rfl⟩ | ⟨hbad, rfl⟩ := hr
    · exact err_eq (frmDecode_of_lt hidle hlt)
    · exact err_eq (frmDecode_of_gt hidle hgt)
    · obtain ⟨c, hex⟩ := frmDecode_of_checksumFails hidle hbad
      exact err_eq hex
  | frmVerify =>
    obtain ⟨hshort, ht⟩ | ⟨h4, h1, ⟨hne, ht⟩ | ⟨heq, -⟩⟩ := frmVerify_err h <;>
      obtain ⟨hshort', rfl⟩ | ⟨h4', h1', hne', rfl⟩ := hr
    · exact ht
    · omega
    · omega
    · exact ht
    · omega
    · exact absurd heq hne'
  | seqPredict => exact err_eq (exec_of_rejects (.inl rfl) (seqPredict_next h).1 hr)
  | seqXchg => exact err_eq (exec_of_rejects (.inr rfl) (seqXchg_next h).1 hr)
  | crcReset | crcPush | seqClose | hostRd | hostWr | crcValue => exact hr.elim

theorem err_eq_iff_raises (e : Err) (he : e ≠ .none) : t.err = e ↔ Raises i s e :=
  ⟨fun ht => ht ▸ raises_of_err hc h (ht ▸ he), err_of_raises hc h⟩

end

/-! ## The causes, error by error -/

theorem rejects_frameTooShort_iff (s : State) :
    s.rejects .frameTooShort ↔
      s.txlen.toNat < 2 ∨ (s.txlen.toNat < 6 ∧ ∃ fc, s.cell .txbuf 1 = some fc ∧
        (s.familyOf fc = .bitRead ∨ s.familyOf fc = .registerRead)) := by
  constructor
  · rintro (⟨-, he⟩ | ⟨h2, -⟩ | ⟨-, h6, -, hfc⟩)
    · cases he
    · exact .inl h2
    · exact .inr ⟨h6, hfc⟩
  · rintro (h2 | ⟨h6, hfc⟩)
    · exact .inr (.inl ⟨h2, rfl⟩)
    · obtain h2 | h2 := Nat.lt_or_ge s.txlen.toNat 2
      · exact .inr (.inl ⟨h2, rfl⟩)
      · exact .inr (.inr ⟨h2, h6, rfl, hfc⟩)

theorem rejects_frameTooLong_iff (s : State) : s.rejects .frameTooLong ↔ 256 < s.txlen.toNat := by
  simp [State.rejects]

theorem raises_frameTooShort_iff (i : Instr) (s : State) :
    Raises i s .frameTooShort ↔
      (i = .frmDecode ∧ s.rxlen.toNat < 4) ∨ (i = .frmVerify ∧ (s.rxlen.toNat < 4 ∨ s.txlen.toNat < 1)) ∨
      ((i = .seqPredict ∨ i = .seqXchg) ∧
        (s.txlen.toNat < 2 ∨ (s.txlen.toNat < 6 ∧ ∃ fc, s.cell .txbuf 1 = some fc ∧
          (s.familyOf fc = .bitRead ∨ s.familyOf fc = .registerRead)))) := by
  rw [← rejects_frameTooShort_iff]
  cases i <;> simp [Raises]

theorem raises_frameTooLong_iff (i : Instr) (s : State) :
    Raises i s .frameTooLong ↔
      (i = .frmEncode ∧ 256 < s.plen.toNat + 4) ∨ (i = .frmDecode ∧ 256 < s.rxlen.toNat) ∨
      ((i = .seqPredict ∨ i = .seqXchg) ∧ 256 < s.txlen.toNat) := by
  rw [← rejects_frameTooLong_iff, show 256 < s.plen.toNat + 4 ↔ 252 < s.plen.toNat by omega]
  cases i <;> simp [Raises]

theorem raises_crcMismatch_iff (i : Instr) (s : State) :
    Raises i s .crcMismatch ↔ i = .frmDecode ∧ s.ChecksumFails := by
  cases i <;> simp [Raises, State.rejects]

theorem raises_addressMismatch_iff (i : Instr) (s : State) :
    Raises i s .addressMismatch ↔
      i = .frmVerify ∧ 4 ≤ s.rxlen.toNat ∧ 1 ≤ s.txlen.toNat ∧ s.cell .rxbuf 0 ≠ s.cell .txbuf 0 := by
  cases i <;> simp [Raises, State.rejects]

/-- The two errors that are no command's (60_exceptions R235, R236). -/
theorem not_raises {e : Err} (he : e = .ioError ∨ e = .illegalCommand) (i : Instr) (s : State) : ¬Raises i s e := by
  obtain rfl | rfl := he <;> cases i <;> simp [Raises, State.rejects]

/-! ## The errors of command words and driver events -/

/-- A host write to `CMD` leaves `IllegalCommand` exactly for a word that is no command (60_exceptions R236). -/
theorem hostWr_cmd_err_iff {v : Word} {s t : State} (h : exec (.hostWr 0x000 v) s = .next t) :
    t.err = .illegalCommand ↔ decodeCommand v = none := by
  obtain ⟨-, ⟨_, -, -, h0⟩ | ⟨_, _, -, -, h0⟩ | ⟨-, ⟨hd, rfl⟩ | ⟨i, hd, hc, hex⟩⟩⟩ := hostWr_next h
  · exact absurd rfl h0
  · exact absurd rfl h0
  · exact iff_of_true rfl hd
  · refine iff_of_false (fun ht => ?_) (by simp [hd])
    exact not_raises (.inr rfl) i s ((err_eq_iff_raises hc hex .illegalCommand nofun).1 ht)

/-- The driver's failure event of the state (60_exceptions R235). -/
def FailsIn (e : Event) (q : Seq) : Prop :=
  (e = .openFail ∧ q = .connect) ∨ (e = .txFail ∧ q = .send) ∨ (e = .rxFail ∧ (q = .readMin ∨ q = .readRem))

theorem onEvent_of_failsIn {e : Event} {s : State} (h : FailsIn e s.st) :
    onEvent e s = .next { s with rxlen := 0, err := .ioError, st := .idle } := by
  obtain ⟨rfl, hq⟩ | ⟨rfl, hq⟩ | ⟨rfl, hq⟩ := h <;> exact if_pos hq

theorem onEvent_err_of_not_failsIn {e : Event} {s t : State} (h : onEvent e s = .next t) (hf : ¬FailsIn e s.st) :
    t.err = s.err := by
  cases e with
  | openOk => obtain ⟨-, rfl⟩ | ⟨-, rfl⟩ := openOk_next h <;> rfl
  | txAccept => obtain ⟨-, rfl⟩ | ⟨-, _, -, ⟨-, rfl⟩ | ⟨-, rfl⟩⟩ := txAccept_next h <;> rfl
  | tick => obtain ⟨-, rfl⟩ | ⟨-, -, rfl⟩ | ⟨-, -, rfl⟩ := tick_next h <;> rfl
  | rxByte b =>
    obtain ⟨-, -, rfl⟩ | ⟨-, _, rfl, ⟨-, -, rfl⟩ | ⟨-, -, _, -, ⟨-, rfl⟩ | ⟨-, rfl⟩⟩ | ⟨-, -, rfl⟩ | ⟨-, -, rfl⟩⟩ :=
      rxByte_next h <;> rfl
  | openFail =>
    obtain ⟨-, rfl⟩ | ⟨hq, -⟩ := openFail_next h
    · rfl
    · exact absurd (.inl ⟨rfl, hq⟩) hf
  | txFail =>
    obtain ⟨-, rfl⟩ | ⟨hq, -⟩ := txFail_next h
    · rfl
    · exact absurd (.inr (.inl ⟨rfl, hq⟩)) hf
  | rxFail =>
    obtain ⟨-, rfl⟩ | ⟨hq, -⟩ := rxFail_next h
    · rfl
    · exact absurd (.inr (.inr ⟨rfl, hq⟩)) hf

/-- Settles O42: a command's error is the one it has cause to raise (`err_eq_iff_raises`); then each error's causes, the
words written to `CMD`, and the driver's failure events. -/
theorem everyErrorHasItsCause : Obligations.EveryErrorHasItsCause := by
  refine ⟨⟨rfl, rfl, rfl, rfl, rfl, rfl, rfl⟩, fun i s t hc h => ?commands, fun v s t => hostWr_cmd_err_iff,
    fun e s t h => ⟨fun hf => ?fails, onEvent_err_of_not_failsIn h⟩⟩
  case commands =>
    have hraises := err_eq_iff_raises hc h
    exact ⟨(hraises .frameTooShort nofun).trans (raises_frameTooShort_iff i s),
      (hraises .frameTooLong nofun).trans (raises_frameTooLong_iff i s),
      (hraises .crcMismatch nofun).trans (raises_crcMismatch_iff i s),
      (hraises .addressMismatch nofun).trans (raises_addressMismatch_iff i s),
      fun ht => not_raises (.inl rfl) i s ((hraises .ioError nofun).1 ht),
      fun ht => not_raises (.inr rfl) i s ((hraises .illegalCommand nofun).1 ht)⟩
  case fails =>
    rw [onEvent_of_failsIn hf] at h
    cases h
    exact ⟨rfl, rfl, rfl⟩

end Sys2Proof.Machine
end

section
/-! Proofs about 70_reset_and_hazards: what reset leaves (R261), that it is a legal state, and that while an exchange runs
host writes are refused and host reads go on (R265). -/

namespace Sys2Proof.Machine

/-- Settles O40: the guard on commands and host writes (`exec_command_of_busy`, `hostWr_of_busy`), and the three kinds of
read, none of which has a guard. -/
theorem busyRefusesWritesOnly : Obligations.BusyRefusesWritesOnly := by
  obtain ⟨-, hvalue⟩ := crcValueReturnsTheAccumulator
  refine fun s => ⟨fun hbusy i hi => ?writes, (hvalue s).1,
    fun idx r hr => hostRd_of_reg (hostTarget_of_reg hr) s, fun b i v => hostRd_of_written⟩
  case writes =>
    obtain hc | ⟨idx, v, rfl⟩ := hi
    · exact exec_command_of_busy hc hbusy
    · exact hostWr_of_busy hbusy idx v

/-- Settles O49: `ST` is `IDLE`, no cell is listed, and the progress registers are 0. -/
theorem resetIsLegal : Obligations.ResetIsLegal :=
  .of_idle State.reset_st State.reset_mem_wf State.reset_waitcnt (.inl State.reset_rxtgt) (Nat.zero_le _)
    (.inl State.reset_pred)

/-- A read of either delay while `BAUD` is 0 shows the default (42_sequencer R176, R177). -/
theorem readReg_delays_of_baud_zero {s : State} (h : s.baud = 0) :
    readReg s .chdly = 750 ∧ readReg s .frdly = 1750 := by
  obtain ⟨hchar, hframe⟩ := delays_of_not_scales (baud := s.baud.toNat) (by rw [h]; decide)
  exact ⟨congrArg (BitVec.ofNat 32) hchar, congrArg (BitVec.ofNat 32) hframe⟩

/-- No cell is written at reset (10_state R37). -/
theorem not_written_reset (b : Buf) (i : Nat) : ¬State.reset.written b i :=
  State.cell_eq_none_iff.1 (Memory.read_nil _)

/-- Settles O47: the registers as `State.reset` lists them, then the views, the cells and the outputs. -/
theorem resetLeavesTheListedValues : Obligations.ResetLeavesTheListedValues := by
  obtain ⟨hchdly, hfrdly⟩ := readReg_delays_of_baud_zero State.reset_baud
  exact ⟨State.reset_crc, State.reset_err, State.reset_uaddr, State.reset_ufc, State.reset_plen, State.reset_txlen,
    State.reset_rxlen, State.reset_baud, State.reset_pred, State.reset_waitcnt, State.reset_txcnt, State.reset_rxtgt,
    State.reset_st, State.reset_doneBit, State.reset_openBit, rfl, hchdly, hfrdly, not_written_reset,
    rfl, rfl, rfl, rfl, rfl⟩

end Sys2Proof.Machine
end
